-- ==== Sys2Proof/Word.lean ====
section
/-! DEFINITION. The word types of the line-framing engine: 00_scope.md R8, R9 (all quantities are unsigned). -/

namespace Sys2Proof

/-- A data byte or a wire address byte: "a byte is 8 bits", "a wire address byte is 8 bits" (R8; formats A and B of R80). -/
abbrev Byte := BitVec 8

/-- A bridge register offset: "register offsets are 4 bits" (R8). -/
abbrev Offset := BitVec 4

/-- A two-bit code: a host command (format H), a response (format P) or a state code (format S) of R80. -/
abbrev Code := BitVec 2

end Sys2Proof
end

