-- ==== Sys2Proof/Config.lean ====
section
/-! DEFINITION. What an implementation fixes (00_scope.md R7, R8) and the free values of the model.
The parameters with a default are data (`Params`) so that statements hold for every value of them (log 4);
the OPEN parameters and every draw are constants without a value (logs 5, 6, 8, 9, 17, 18). -/

namespace Sys2Proof

/-- The parameters of R7 that have a default: MAXLEN, HAS_XERR, RD_LATENCY. They are fixed when the block is built
(R29, R32) and no step writes them. -/
structure Params where
  /-- MAXLEN: capacity of the sentence buffer in bytes. -/
  maxlen : Nat
  /-- HAS_XERR: whether the FIFO port can report a failed transaction. -/
  hasXerr : Bool
  /-- RD_LATENCY: clocks from rd_idx to rd_data on the sentence read port (port-level binding only). -/
  rdLatency : Nat
  deriving DecidableEq, Repr

/-- The defaults R7 states: MAXLEN 256, HAS_XERR true, RD_LATENCY 0. -/
def Params.default : Params := { maxlen := 256, hasXerr := true, rdLatency := 0 }

/-- The constraints R7 puts on the parameters: MAXLEN >= 2, RD_LATENCY in 0, 1. -/
abbrev Params.wf (p : Params) : Prop := 2 ≤ p.maxlen ∧ p.rdLatency ≤ 1

/-- LENW of R7: ceil(log2(MAXLEN + 1)), which is floor(log2 MAXLEN) + 1 for MAXLEN >= 1. -/
def Params.lenw (p : Params) : Nat := Nat.log2 p.maxlen + 1

/-- IDXW of R7: ceil(log2(MAXLEN)), which is floor(log2(MAXLEN - 1)) + 1 for MAXLEN >= 2. -/
def Params.idxw (p : Params) : Nat := Nat.log2 (p.maxlen - 1) + 1

/-- What a PUSH into a full receive FIFO does: "both obvious policies" of R162. -/
inductive FullPolicy where
  /-- the byte that arrives is dropped -/
  | dropNewest
  /-- the byte at the head is dropped and the new one is appended -/
  | dropOldest
  deriving DecidableEq, Repr, Inhabited

/-- T0, the first terminator byte, carriage-return (R7, R88; its numeric value is GK1, log 7). -/
def Config.t0 : Byte := 0x0D

/-- T1, the second terminator byte, line-feed (R7, R88; its numeric value is GK1, log 7). -/
def Config.t1 : Byte := 0x0A

/-- FIFO_DEPTH less one: OPEN in R7, so it has no value here (log 5). -/
opaque Config.fifoDepthLessOne : Fin 255

/-- FIFO_DEPTH, capacity of the bridge chip's receive FIFO: 1 <= FIFO_DEPTH <= 255 (R7) and nothing more is known of it. -/
def Config.fifoDepth : Nat := Config.fifoDepthLessOne.val + 1

/-- FIFO_FULL_POLICY: OPEN in R7 and R162, so it has no value here (log 6). -/
opaque Config.fifoFullPolicy : FullPolicy

/-- The byte of the n-th draw: an undefined read of a bridge register (R57, U1, N10; log 8). -/
opaque Config.freeByte : Nat → Byte

/-- What the n-th read of an undefined buffer cell i returns (R23, U4: "each read is a fresh draw"; log 9). -/
opaque Config.undefinedCell : Nat → Nat → Byte

/-- Which bit of FIFO-control is the FIFO reset bit: there is one and its position is not given (R30, N10; log 17). -/
opaque Config.fifoResetBit : Fin 8

/-- Whether the enhanced-feature register's contents enable the enhanced features; the bits are not given (R30, N10; log 18). -/
opaque Config.enhancedEnabled : Byte → Bool

end Sys2Proof
end

