-- ==== Sys2Proof/Syntax.lean ====
section
/-! DEFINITION. The operation set of the LFE (00_scope.md R2, 30_encoding.md R103), one constructor per row of
opcode_table.json, and the forms in which an operation reaches the machine (R80, R103; log 32). -/

namespace Sys2Proof

/-- The operations of R103. -/
inductive Instr where
  /-- host command 00 (R144) -/
  | nop
  /-- host command 01 (R111) -/
  | poll
  /-- host command 10 (R141, R142) -/
  | take
  /-- host command 11, reserved (R145) -/
  | rsvd
  /-- bus read of the receive-FIFO level, address byte 0xC8 (R156) -/
  | rdRxlvl
  /-- bus read of the holding register, address byte 0x80 (R157) -/
  | rdRhr
  /-- generic bus read at offset r (R158) -/
  | regrd (r : Offset)
  /-- generic bus write of v at offset r (R159) -/
  | regwr (r : Offset) (v : Byte)
  /-- engine micro-step: the level query (R113) -/
  | lvl
  /-- engine micro-step: one byte from the FIFO into the buffer (R115) -/
  | pull
  /-- producer event: byte b arrives from the serial line (R161) -/
  | push (b : Byte)
  /-- platform event: reset (R216) -/
  | reset
  deriving DecidableEq, Repr

/-- The values of `phase` (R20, R25). Code 3 is never held, so there is no such value (R92). -/
inductive Phase where
  | idle
  | query
  | drain
  deriving DecidableEq, Repr, Inhabited

/-- The form in which an operation reaches the machine, still encoded (R80, R103; log 32). -/
inductive Wire where
  /-- format H: a command code on the cmd port -/
  | cmd (c : Code)
  /-- format A: the bytes of one bus transaction, address byte first (R84), a write's data byte after it (R159) -/
  | bus (bytes : List Byte)
  /-- format B: a byte on the serial line -/
  | line (b : Byte)
  /-- the rst input -/
  | rst
  /-- no encoding: the micro-step that `phase` selects (opcode_table.json, rows LVL and PULL) -/
  | micro (p : Phase)
  deriving DecidableEq, Repr, Inhabited

/-- What the environment does with the bus transaction of a step (R163, R42, R236; log 2). -/
inductive BusOutcome where
  /-- the transaction completes without error -/
  | ack
  /-- the transaction fails; `took` says whether its side effect happened (D16, U10) -/
  | err (took : Bool)
  /-- the transaction is not answered in this step (R236) -/
  | noAck
  deriving DecidableEq, Repr, Inhabited

/-- Which agent moves (R15, R62): the engine, or an agent outside it with an encoded operation. -/
inductive Action where
  | engine
  | wire (w : Wire)
  deriving DecidableEq, Repr, Inhabited

/-- One step of the interleaving: the agent that moves and the environment's choice for a bus transaction of that step. -/
structure Turn where
  action : Action
  outcome : BusOutcome
  deriving DecidableEq, Repr, Inhabited

/-- The n-th turn where the schedule names none: a free value, since "any agent that has an enabled step may take it" (R15; log 1). -/
opaque Config.freeTurn : Nat → Turn

end Sys2Proof
end

