-- ==== Sys2Proof/WellFormed.lean ====
section
/-! DEFINITION. The instructions a decoder can answer. RD_RXLVL and RD_RHR "are matched before the generic row REGRD,
of which they are instances" (30_encoding.md R103): REGRD at offsets 0x09 and 0x00 is written as those two. -/

namespace Sys2Proof

/-- R103: a generic read at offset 0x00 or 0x09 is the row RD_RHR or RD_RXLVL; every other term is an operation as it stands. -/
def Instr.wellFormed : Instr → Bool
  | .nop => true
  | .poll => true
  | .take => true
  | .rsvd => true
  | .rdRxlvl => true
  | .rdRhr => true
  | .regrd r => r != 0x0 && r != 0x9
  | .regwr _ _ => true
  | .lvl => true
  | .pull => true
  | .push _ => true
  | .reset => true

end Sys2Proof
end

