-- ==== Sys2Proof/Decode.lean ====
section
/-! DEFINITION. The decoder, total on every encoded form and rejecting by name, and the encoder, both written from
30_encoding.md R80, R81, R84 to R87, R92, R103. -/

namespace Sys2Proof

/-- Why an encoded form selects no operation (R92). -/
inductive DecodeError where
  /-- no address byte: every bus transaction begins with one (R84) -/
  | noAddressByte
  /-- an address byte with bits 2:0 not 0: "the source's formula cannot produce it" (R92, U13) -/
  | reservedLowBits (a : Byte)
  /-- a write whose data byte is missing (R159: the address byte is "followed by the data byte") -/
  | missingPayload (a : Byte)
  /-- more bytes than a "single-byte read/write" transaction has (R12, R53) -/
  | trailingBytes (a : Byte)
  /-- phase IDLE selects no micro-step (R25, R172) -/
  | noMicroStep
  deriving DecidableEq, Repr

/-- The access bit of R84: 0x80 for a read, 0 for a write. -/
def accessBit (read : Bool) : Byte := if read then 0x80 else 0x00

/-- R84: physical_byte = (register_offset << 3) | access_bit. -/
def physicalByte (read : Bool) (r : Offset) : Byte := (r.setWidth 8 <<< 3) ||| accessBit read

/-- R86: offset = byte[6:3]. -/
def offsetOf (a : Byte) : Offset := a.extractLsb' 3 4

/-- R86: access = byte[7]; true is a read. -/
def isRead (a : Byte) : Bool := a.getLsbD 7

/-- R84: bits 2:0 of an address byte are always 0. -/
def lowBitsZero (a : Byte) : Bool := a.extractLsb' 0 3 == 0

/-- Format H (R81). -/
def decodeCommand (c : Code) : Instr :=
  match c.toNat with
  | 0 => .nop
  | 1 => .poll
  | 2 => .take
  | _ => .rsvd

/-- A read's address byte: the two fixed rows before the generic one (R103). -/
def decodeRead (r : Offset) : Instr :=
  if r = 0x9 then .rdRxlvl else if r = 0x0 then .rdRhr else .regrd r

/-- Format A (R84 to R86, R103): a read is the address byte alone, a write the address byte and one data byte. -/
def decodeBus : List Byte → Except DecodeError Instr
  | [] => .error .noAddressByte
  | a :: rest =>
    if lowBitsZero a then
      match isRead a, rest with
      | true, [] => .ok (decodeRead (offsetOf a))
      | false, [v] => .ok (.regwr (offsetOf a) v)
      | false, [] => .error (.missingPayload a)
      | _, _ => .error (.trailingBytes a)
    else .error (.reservedLowBits a)

/-- The micro-step that `phase` selects (R113, R115: "Enabled when"; opcode_table.json). -/
def decodeMicro : Phase → Except DecodeError Instr
  | .idle => .error .noMicroStep
  | .query => .ok .lvl
  | .drain => .ok .pull

/-- The whole decoder (R103). -/
def decode : Wire → Except DecodeError Instr
  | .cmd c => .ok (decodeCommand c)
  | .bus bytes => decodeBus bytes
  | .line b => .ok (.push b)
  | .rst => .ok .reset
  | .micro p => decodeMicro p

/-- The encoder, from the same tables (R81, R84, R85, R103). -/
def encode : Instr → Wire
  | .nop => .cmd 0b00
  | .poll => .cmd 0b01
  | .take => .cmd 0b10
  | .rsvd => .cmd 0b11
  | .rdRxlvl => .bus [physicalByte true 0x9]
  | .rdRhr => .bus [physicalByte true 0x0]
  | .regrd r => .bus [physicalByte true r]
  | .regwr r v => .bus [physicalByte false r, v]
  | .lvl => .micro .query
  | .pull => .micro .drain
  | .push b => .line b
  | .reset => .rst

/-- The encoded form of a word of opcode_table.json (log 24). A word of at most 8 bits below 4 is read on the cmd port
(format H), every other word on the bus (format A), first byte lowest; a write's data byte above nbits is 0. -/
def tableWire (nbits w : Nat) : Wire :=
  let a : Byte := BitVec.ofNat 8 w
  let v : Byte := BitVec.ofNat 8 (w / 256)
  if nbits ≤ 8 ∧ w < 4 then .cmd (BitVec.ofNat 2 w)
  else if isRead a ∧ nbits ≤ 8 then .bus [a]
  else .bus [a, v]

/-- The instruction the decoder reads from a word numbered as opcode_table.json numbers it. A row without a width has no
encoding (R103), so no word of zero bits decodes. -/
def decodeTableWord (nbits w : Nat) : Option Instr :=
  if nbits = 0 then none else (decode (tableWire nbits w)).toOption

end Sys2Proof
end

