-- ==== Sys2Proof/Machine/State.lean ====
section
/-! DEFINITION. The machine's state as plain data: the LFE's five elements (10_state.md R20), the bridge chip's registers
and receive FIFO (R30, R31), the outputs of the last step (R40), the parameters (R7), and the model's own inputs (logs 1, 2, 8). -/

namespace Sys2Proof.Machine

/-- `st` (R20, R21). Code 3 is never held, so there is no such value (R92). -/
inductive Framing where
  /-- Accumulating, code 0 -/
  | acc
  /-- Complete, code 1 -/
  | cmp
  /-- Overflow, code 2 -/
  | ovf
  deriving DecidableEq, Repr

/-- The response codes of format P (R82). -/
inductive Response where
  /-- NONE, code 00 -/
  | none
  /-- SENT, code 01 -/
  | sent
  /-- OVF, code 10 -/
  | ovf
  /-- XERR, code 11 -/
  | xerr
  deriving DecidableEq, Repr

/-- The twelve registers of the bridge chip's map (R30), and what stands at offset 0x01 in the normal view, where the map names
none (C6; logs 8, 20). -/
inductive BridgeRegister where
  | holding
  | divisorLow
  | divisorHigh
  | fifoControl
  | enhancedFeature
  | lineControl
  | modemControl
  | modemStatus
  | lineStatus
  | triggerLevel
  | transmitLevel
  | receiveLevel
  | unlisted
  deriving DecidableEq, Repr

/-- The bridge chip (environment): receive FIFO, head first (R31), and the registers of R30 that hold a byte (log 16).
`transmitted` is the sequence of bytes put in the transmit path (log 29). -/
structure Bridge where
  fifo : List Byte
  lineControl : Byte
  modemControl : Byte
  divisorLow : Byte
  divisorHigh : Byte
  enhancedFeature : Byte
  fifoControl : Byte
  triggerLevel : Byte
  transmitted : List Byte
  deriving DecidableEq, Repr

/-- What a completed bus transaction put on the bus after its address byte (R42, R100). -/
inductive BusResult where
  /-- a read returned the byte -/
  | data (b : Byte)
  /-- a write completed -/
  | written
  /-- the transaction failed (R163) -/
  | failed
  deriving DecidableEq, Repr

/-- A completed bus transaction: its wire address byte (R84) and its result. -/
structure BusTxn where
  addr : Byte
  result : BusResult
  deriving DecidableEq, Repr

/-- The result of MemRead (R12): ok(v) or err, or no answer yet (R236). -/
inductive ReadReply where
  | ok (v : Byte)
  | err
  | waiting
  deriving DecidableEq, Repr

/-- The sentence buffer: the cells written so far as (index, byte), indexes strictly rising. A cell not listed holds no
defined value (R23, U4): a read of it is a draw (logs 9, 14). -/
abbrev Memory := List Host.Cell

/-- The whole state. -/
structure State where
  /-- the framing state (R21) -/
  st : Framing
  /-- number of valid bytes in `buf` (R22; a Nat, log 13) -/
  len : Nat
  /-- the sentence buffer (R23) -/
  buf : Memory
  /-- bytes still to pull in the current poll cycle (R24) -/
  rem : BitVec 8
  /-- where the engine is inside a command (R25) -/
  phase : Phase
  /-- the bridge chip (R30, R31) -/
  bridge : Bridge
  /-- rsp_valid and rsp: the response the LFE's last step gave, if it gave one (R13, R40); no other agent's step changes it -/
  rsp : Option Response
  /-- the Sentence the last step emitted, if it emitted one (R13, R141) -/
  emission : Option (List Byte)
  /-- the bus transaction the last step completed, if any (R42) -/
  bus : Option BusTxn
  /-- the parameters with a default, fixed when the block is built (R7; log 4) -/
  params : Params
  /-- the MODEL's own: the environment's choice for this step's bus transaction (R163; log 2) -/
  outcome : BusOutcome
  /-- the MODEL's own: the turns still to be taken (R15, R32; log 1) -/
  schedule : List Turn
  /-- the MODEL's own: how many free values have been drawn (log 8) -/
  draws : Nat
  deriving DecidableEq, Repr

/-- Why the machine stops with a fault. -/
inductive Fault where
  /-- a PULL would write `buf[len]` with `len` beyond MAXLEN: no such cell exists (R50). Raised by PULL only, in states no
  run reaches (R33). Safe: the machine stops where the spec gives no cell (log 27). -/
  | bufferIndex
  deriving DecidableEq, Repr

/-- Why an operation is refused. -/
inductive Refusal where
  /-- an instruction of the table without a meaning yet; raised by no arm of exec. Safe. -/
  | notModelled (mnemonic : String)
  /-- step: the encoded form selects no operation (R92, U13: an environment model refuses it; log 26). Safe. -/
  | undecodable (e : DecodeError)
  /-- REGRD, REGWR at 0x0A to 0x0F, and at 0x07 while it is not valid: "an environment model `refuse`s them" (U13, R238;
  log 19). Safe. -/
  | noRegister (r : Offset)
  deriving DecidableEq, Repr

/-- The bridge chip as State.reset has it: the spec gives no value (N10; logs 10, 11). -/
def Bridge.initial : Bridge :=
  { fifo := [], lineControl := 0, modemControl := 0, divisorLow := 0, divisorHigh := 0, enhancedFeature := 0,
    fifoControl := 0, triggerLevel := 0, transmitted := [] }

/-- The machine right after reset: R38 for the LFE, the defaults of R7 for the parameters, and the values of logs 10 to 12
where the spec gives none. -/
def State.reset : State :=
  { st := .acc, len := 0, buf := [], rem := 0, phase := .idle,
    bridge := Bridge.initial,
    rsp := none, emission := none, bus := none,
    params := Params.default,
    outcome := .ack, schedule := [], draws := 0 }

end Sys2Proof.Machine
end

