-- ==== Sys2Proof/Machine/Flags.lean ====
section
/-! DEFINITION. The LFE has no stored flags (10_state.md R28). Here stand the codes of `st`, `phase` and the responses
(R20, R82, R83), the byte classes (R88) and the one condition the machine tests, the terminator match (00_scope.md R14). -/

namespace Sys2Proof.Machine

/-- R83: ACC = 00, CMP = 01, OVF = 10. -/
def Framing.code : Framing → Code
  | .acc => 0b00
  | .cmp => 0b01
  | .ovf => 0b10

/-- R83: IDLE = 00, QUERY = 01, DRAIN = 10. -/
def phaseCode : Phase → Code
  | .idle => 0b00
  | .query => 0b01
  | .drain => 0b10

/-- R82: NONE = 00, SENT = 01, OVF = 10, XERR = 11. -/
def Response.code : Response → Code
  | .none => 0b00
  | .sent => 0b01
  | .ovf => 0b10
  | .xerr => 0b11

/-- The response "code of st" (R82, R144): NONE in ACC, SENT in CMP, OVF in OVF. -/
def Framing.response : Framing → Response
  | .acc => .none
  | .cmp => .sent
  | .ovf => .ovf

/-- The three classes of R88. -/
inductive ByteClass where
  | t0
  | t1
  | other
  deriving DecidableEq, Repr

/-- R88: the class of a data byte. -/
def byteClass (b : Byte) : ByteClass :=
  if b = Config.t0 then .t0 else if b = Config.t1 then .t1 else .other

/-- R14: match(b, n) = (n >= 2) and (b[n-2] == T0) and (b[n-1] == T1). -/
def terminatorMatch (b : Nat → Byte) (n : Nat) : Bool :=
  decide (2 ≤ n) && (b (n - 2) == Config.t0 && b (n - 1) == Config.t1)

/-- R28: the derived value `prev_t0`, (len >= 1) and (buf[len-1] == T0); `seen_t0` of R171. -/
def seenT0 (b : Nat → Byte) (n : Nat) : Bool :=
  decide (1 ≤ n) && b (n - 1) == Config.t0

end Sys2Proof.Machine
end

