-- ==== Sys2Proof/Machine/Operands.lean ====
section
/-! DEFINITION. Operand forms. Host commands carry no operand; a bus transaction's operand is a 4-bit offset that, with
line-control bit 7 and the validity condition of offset 0x07, selects a register (10_state.md R30, 20_memory.md R51, R52). -/

namespace Sys2Proof.Machine

/-- Line-control bit 7, the divisor-latch access bit (R30). -/
def Bridge.latchAccess (b : Bridge) : Bool := b.lineControl.getLsbD 7

/-- Offset 0x07 is the trigger-level register "only when enhanced features and modem-control bit 2 are both set" (R30, R238). -/
def Bridge.triggerValid (b : Bridge) : Bool :=
  Config.enhancedEnabled b.enhancedFeature && b.modemControl.getLsbD 2

/-- Whether a byte written to FIFO-control carries the FIFO reset bit (R30). -/
def fifoControlResets (v : Byte) : Bool := v.getLsbD Config.fifoResetBit.val

/-- What FIFO-control holds after a write: the byte, but that the reset bit "is self-clearing" (R30, R222 step 6; log 17). -/
def fifoControlStored (v : Byte) : Byte := v &&& ~~~(BitVec.twoPow 8 Config.fifoResetBit.val)

/-- The two views of offset 0x00 (R52). -/
def Bridge.registerAtZero (b : Bridge) : BridgeRegister :=
  if b.latchAccess then .divisorLow else .holding

/-- The register map of R30: what an offset selects now, or none where U13 has an environment model refuse the offset. -/
def Bridge.registerAt (b : Bridge) (r : Offset) : Option BridgeRegister :=
  match r.toNat with
  | 0x0 => some b.registerAtZero
  | 0x1 => some (if b.latchAccess then .divisorHigh else .unlisted)
  | 0x2 => if b.latchAccess then some .enhancedFeature else some .fifoControl
  | 0x3 => some .lineControl
  | 0x4 => some .modemControl
  | 0x5 => some .modemStatus
  | 0x6 => some .lineStatus
  | 0x7 => if b.triggerValid then some .triggerLevel else none
  | 0x8 => some .transmitLevel
  | 0x9 => some .receiveLevel
  | _ => none

end Sys2Proof.Machine
end

