-- ==== Sys2Proof/Machine/Ops.lean ====
section
/-! DEFINITION. The named operations over the sentence buffer, the FIFO, the bridge registers and the response port, and
the taking of the two faults (60_exceptions.md R186, R187, R197). Meanings are written over these. -/

namespace Sys2Proof.Machine

/-! ### The sentence buffer (R23, R50) -/

/-- The stored byte of a cell; none where the cell was never written. -/
def Memory.read : Memory → Nat → Option Byte
  | [], _ => none
  | c :: m, i => if c.1 = i then some c.2 else Memory.read m i

/-- Writing one cell keeps the indexes rising. -/
def Memory.write : Memory → Nat → Byte → Memory
  | [], i, b => [(i, b)]
  | c :: m, i, b =>
    if i < c.1 then (i, b) :: c :: m
    else if i = c.1 then (i, b) :: m
    else c :: Memory.write m i b

/-- The canonical form: indexes strictly rising. An unlisted cell has no value, so every listed byte differs from it. -/
abbrev Memory.wf (m : Memory) : Prop := m.Pairwise fun c d => c.1 < d.1

/-- The byte the storage gives at index i: the stored byte, or a draw where nothing was stored (R23, U4). -/
def State.byteAt (s : State) (i : Nat) : Byte :=
  (s.buf.read i).getD (Config.undefinedCell s.draws i)

/-- buf[0..len), oldest byte first (R11, R53). -/
def State.sentence (s : State) : List Byte := (List.range s.len).map s.byteAt

/-- match(buf, len) on the present buffer (R14, R119). -/
def State.terminated (s : State) : Bool := terminatorMatch s.byteAt s.len

/-! ### The outputs of a step (R13, R40) -/

/-- The beginning of a step of the LFE: the outputs of its step before are gone ("high for exactly one clock", R40; log 28). -/
def State.quiet (s : State) : State := { s with rsp := none, emission := none, bus := none }

/-- The beginning of a step of another agent: what the step before emitted and transacted is over, but the response port
is the LFE's and keeps its value until the LFE's next clock edge (R39, R40; log 28). -/
def State.offClock (s : State) : State := { s with emission := none, bus := none }

/-- respond(c) of R13. -/
def State.respond (r : Response) (s : State) : State := { s with rsp := some r }

/-- The end of a command inside a poll cycle: rem <- 0 ; phase <- IDLE ; respond(c) (R24, R113, R115). -/
def State.endCommand (r : Response) (s : State) : State :=
  { s with rem := 0, phase := .idle, rsp := some r }

/-- raise Overflow (R116, R186, R198): st <- OVF and the command ends; nothing else is written. -/
def State.raiseOverflow (s : State) : State := { s with st := .ovf }.endCommand .ovf

/-- raise TransportError (R117, R187, R198): the command ends; st, len and buf are kept. -/
def State.raiseTransportError (s : State) : State := s.endCommand .xerr

/-! ### The bridge chip (R30, R31, R156 to R163) -/

/-- A free byte, and the state with the counter advanced (log 8). -/
def State.draw (s : State) : Byte × State :=
  (Config.freeByte s.draws, { s with draws := s.draws + 1 })

/-- Device side of RD_RHR (R157): the head is removed and returned; an empty FIFO gives a draw and stays empty (D29). -/
def State.popFifo (s : State) : Byte × State :=
  match s.bridge.fifo with
  | [] => s.draw
  | b :: rest => (b, { s with bridge := { s.bridge with fifo := rest } })

/-- Device side of a PUSH (R161, R162): the tail, or FIFO_FULL_POLICY when the FIFO is full. -/
def Bridge.push (c : Bridge) (b : Byte) : Bridge :=
  if c.fifo.length < Config.fifoDepth then { c with fifo := c.fifo ++ [b] }
  else match Config.fifoFullPolicy with
    | .dropNewest => c
    | .dropOldest => { c with fifo := c.fifo.drop 1 ++ [b] }

/-- Device side of a read of a register: the byte, and the state after its side effect (R57, R156 to R158; logs 8, 16). -/
def State.readRegister (reg : BridgeRegister) (s : State) : Byte × State :=
  match reg with
  | .holding => s.popFifo
  | .divisorLow => (s.bridge.divisorLow, s)
  | .divisorHigh => (s.bridge.divisorHigh, s)
  | .fifoControl => (s.bridge.fifoControl, s)
  | .enhancedFeature => (s.bridge.enhancedFeature, s)
  | .lineControl => (s.bridge.lineControl, s)
  | .modemControl => (s.bridge.modemControl, s)
  | .modemStatus => s.draw
  | .lineStatus => s.draw
  | .triggerLevel => (s.bridge.triggerLevel, s)
  | .transmitLevel => s.draw
  | .receiveLevel => (BitVec.ofNat 8 s.bridge.fifo.length, s)
  | .unlisted => s.draw

/-- Device side of a write of a register (R30, R159, R222; logs 16, 17, 20, 29). -/
def Bridge.writeRegister (reg : BridgeRegister) (v : Byte) (c : Bridge) : Bridge :=
  match reg with
  | .holding => { c with transmitted := c.transmitted ++ [v] }
  | .divisorLow => { c with divisorLow := v }
  | .divisorHigh => { c with divisorHigh := v }
  | .fifoControl =>
    { c with
      fifoControl := fifoControlStored v
      fifo := if fifoControlResets v then [] else c.fifo }
  | .enhancedFeature => { c with enhancedFeature := v }
  | .lineControl => { c with lineControl := v }
  | .modemControl => { c with modemControl := v }
  | .modemStatus => c
  | .lineStatus => c
  | .triggerLevel => { c with triggerLevel := v }
  | .transmitLevel => c
  | .receiveLevel => c
  | .unlisted => c

/-- The outcome of this step's bus transaction: without HAS_XERR the error input is tied to 0, so the transaction
is acknowledged without error (R40, R163; log 3). -/
def State.busOutcome (s : State) : BusOutcome :=
  match s.outcome with
  | .ack => .ack
  | .err took => if s.params.hasXerr then .err took else .ack
  | .noAck => .noAck

/-- The same state with the environment's choice for its next bus transaction (R163; log 2). -/
def State.meeting (o : BusOutcome) (s : State) : State := { s with outcome := o }

/-- Whether the transaction's side effect happens at the device (R42, D16; logs 21, 22). -/
def sideEffect : BusOutcome → Bool
  | .ack => true
  | .err took => took
  | .noAck => false

/-- MemRead (R12, R42): one read transaction of register `reg` under offset `off`. -/
def State.memRead (reg : BridgeRegister) (off : Offset) (s : State) : ReadReply × State :=
  match s.busOutcome with
  | .ack =>
    (.ok (s.readRegister reg).1,
      { (s.readRegister reg).2 with bus := some ⟨physicalByte true off, .data (s.readRegister reg).1⟩ })
  | .err took =>
    (.err, { (if took then (s.readRegister reg).2 else s) with bus := some ⟨physicalByte true off, .failed⟩ })
  | .noAck => (.waiting, s)

/-- MemWrite (R12, R159): one write transaction; a failed one may or may not have reached the register (log 21). -/
def State.memWrite (reg : BridgeRegister) (off : Offset) (v : Byte) (s : State) : State :=
  match s.busOutcome with
  | .ack =>
    { s with
      bridge := s.bridge.writeRegister reg v
      bus := some ⟨physicalByte false off, .written⟩ }
  | .err took =>
    { s with
      bridge := if took then s.bridge.writeRegister reg v else s.bridge
      bus := some ⟨physicalByte false off, .failed⟩ }
  | .noAck => s

/-- FifoLevel() = MemRead(0x09, 1) (R12, R156). -/
def State.fifoLevel (s : State) : ReadReply × State := s.memRead .receiveLevel 0x9

/-- FifoPop() = MemRead(0x00, 1) (R12, R157), of the register the view puts at offset 0x00 (R52, R230). -/
def State.fifoPop (s : State) : ReadReply × State := s.memRead s.bridge.registerAtZero 0x0

/-! ### Commands (R41, R144) -/

/-- A host command is accepted only when phase is IDLE; offered otherwise it has no effect (R41, R147, R228; log 23). -/
def State.accept (s : State) (f : State → State) : State :=
  if s.phase = .idle then f s.quiet else s.quiet

/-- respond(code of st) (R82, R144). -/
def State.respondStatus (s : State) : State := s.respond s.st.response

end Sys2Proof.Machine
end

