-- ==== Sys2Proof/Machine/Commands.lean ====
section
/-! DEFINITION. The host commands NOP, POLL, TAKE and RSVD (40_poll.md R111, R112, R122; 41_take_nop.md R141 to R145). -/

namespace Sys2Proof.Machine

/-- NOP (R144): respond(code of st). -/
def execNop (s : State) : Host.Outcome State Fault Refusal :=
  .next (s.accept State.respondStatus)

/-- RSVD (R145): behaves exactly as NOP. -/
def execRsvd (s : State) : Host.Outcome State Fault Refusal :=
  .next (s.accept State.respondStatus)

/-- The accept step of a POLL (R111, R112, R122). -/
def pollAccept (s : State) : State :=
  match s.st with
  | .acc => { s with phase := .query }
  | .cmp => s.respond .sent
  | .ovf => s.respond .ovf

/-- POLL (R111). -/
def execPoll (s : State) : Host.Outcome State Fault Refusal :=
  .next (s.accept pollAccept)

/-- The step of a TAKE: the emission of R141 in CMP, the answer of R142 elsewhere. -/
def takeStep (s : State) : State :=
  match s.st with
  | .cmp => { s with emission := some s.sentence, len := 0, st := .acc }.respond .none
  | .acc => s.respondStatus
  | .ovf => s.respondStatus

/-- TAKE (R141, R142). -/
def execTake (s : State) : Host.Outcome State Fault Refusal :=
  .next (s.accept takeStep)

end Sys2Proof.Machine
end

