-- ==== Sys2Proof/Machine/Engine.lean ====
section
/-! DEFINITION. The engine's micro-steps LVL and PULL (40_poll.md R113 to R121, R124). A read that is not answered leaves the
engine where it is (70_reset_and_hazards.md R236). -/

namespace Sys2Proof.Machine

/-- What LVL does with the reply of its level read (R113, R114). -/
def lvlReply (r : ReadReply × State) : State :=
  match r.1 with
  | .waiting => r.2
  | .err => r.2.raiseTransportError
  | .ok n => if n = 0 then r.2.endCommand .none else { r.2 with rem := n, phase := .drain }

/-- LVL (R113), enabled when phase is QUERY; a micro-step that is not enabled is not taken (log 23). -/
def execLvl (s : State) : Host.Outcome State Fault Refusal :=
  if s.phase = .query then .next (lvlReply s.quiet.fifoLevel) else .next s.quiet

/-- buf[len] <- b ; len <- len + 1 ; rem <- rem - 1 (R118). -/
def appendByte (b : Byte) (s : State) : State :=
  { s with buf := s.buf.write s.len b, len := s.len + 1, rem := s.rem - 1 }

/-- Lines 5 to 7 of R115, on the state after the append: match, end of batch, continue (R119, R120, R121). -/
def afterAppend (s : State) : State :=
  if s.terminated then { s with st := .cmp }.endCommand .sent
  else if s.rem = 0 then s.endCommand .none
  else s

/-- What PULL does with the reply of its pop (R115 lines 3 and 4, R117, R118). Cell MAXLEN and beyond do not exist (R50). -/
def pullReply (r : ReadReply × State) : Host.Outcome State Fault Refusal :=
  match r.1 with
  | .waiting => .next r.2
  | .err => .next r.2.raiseTransportError
  | .ok b => if r.2.len < r.2.params.maxlen then .next (afterAppend (appendByte b r.2)) else .fault .bufferIndex

/-- PULL (R115), enabled when phase is DRAIN: the overflow guard (R116) before the pop. -/
def execPull (s : State) : Host.Outcome State Fault Refusal :=
  if s.phase = .drain then
    if s.len = s.params.maxlen then .next s.quiet.raiseOverflow
    else pullReply s.quiet.fifoPop
  else .next s.quiet

end Sys2Proof.Machine
end

