-- ==== Sys2Proof/Machine/Environment.lean ====
section
/-! DEFINITION. The producer's PUSH (42_fifo_transactions.md R161, R162) and the platform's RESET
(70_reset_and_hazards.md R216, R217, R219). -/

namespace Sys2Proof.Machine

/-- PUSH (R161), enabled always. -/
def execPush (b : Byte) (s : State) : Host.Outcome State Fault Refusal :=
  .next { s.offClock with bridge := s.bridge.push b }

/-- A pop is outstanding: the engine drives f_req with address 0x80 (R42), which PULL does unless the overflow guard fires (R115). -/
def State.popOutstanding (s : State) : Bool :=
  decide (s.phase = .drain) && decide (s.len ≠ s.params.maxlen)

/-- A read outstanding when reset falls may or may not have had its side effect (R217, D25; log 22). -/
def State.abandonRead (s : State) : State :=
  if s.popOutstanding && sideEffect s.busOutcome then (s.readRegister s.bridge.registerAtZero).2 else s

/-- The writes of the reset step (R216): st, len, rem, phase, and no response; buf is not written. -/
def resetWrites (s : State) : State :=
  { s.quiet with st := .acc, len := 0, rem := 0, phase := .idle }

/-- RESET (R216), enabled in every state. -/
def execReset (s : State) : Host.Outcome State Fault Refusal :=
  .next (resetWrites s.abandonRead)

end Sys2Proof.Machine
end

