-- ==== Sys2Proof/Machine/Transactions.lean ====
section
/-! DEFINITION. Bus transactions by software outside the block: RD_RXLVL, RD_RHR, REGRD and REGWR
(42_fifo_transactions.md R156 to R159). LVL and PULL issue the first two through the same operations (R155). -/

namespace Sys2Proof.Machine

/-- RD_RXLVL (R156). -/
def execRdRxlvl (s : State) : Host.Outcome State Fault Refusal :=
  .next s.offClock.fifoLevel.2

/-- RD_RHR (R157). -/
def execRdRhr (s : State) : Host.Outcome State Fault Refusal :=
  .next s.offClock.fifoPop.2

/-- REGRD (R158): the byte at offset r in the view selected by line-control bit 7; refused where U13 refuses it (log 19). -/
def execRegrd (r : Offset) (s : State) : Host.Outcome State Fault Refusal :=
  match s.bridge.registerAt r with
  | some reg => .next (s.offClock.memRead reg r).2
  | none => .refused (.noRegister r)

/-- REGWR (R159): one byte to the register at offset r in the view selected; refused where U13 refuses it (log 19). -/
def execRegwr (r : Offset) (v : Byte) (s : State) : Host.Outcome State Fault Refusal :=
  match s.bridge.registerAt r with
  | some reg => .next (s.offClock.memWrite reg r v)
  | none => .refused (.noRegister r)

end Sys2Proof.Machine
end

