-- ==== Sys2Proof/Machine/Dispatch.lean ====
section
/-! DEFINITION. One arm per operation of 30_encoding.md R103, each one direct call of its meaning. -/

namespace Sys2Proof.Machine

def exec (i : Instr) (s : State) : Host.Outcome State Fault Refusal :=
  match i with
  | .nop => Sys2Proof.Machine.execNop s
  | .poll => Sys2Proof.Machine.execPoll s
  | .take => Sys2Proof.Machine.execTake s
  | .rsvd => Sys2Proof.Machine.execRsvd s
  | .rdRxlvl => Sys2Proof.Machine.execRdRxlvl s
  | .rdRhr => Sys2Proof.Machine.execRdRhr s
  | .regrd r => Sys2Proof.Machine.execRegrd r s
  | .regwr r v => Sys2Proof.Machine.execRegwr r v s
  | .lvl => Sys2Proof.Machine.execLvl s
  | .pull => Sys2Proof.Machine.execPull s
  | .push b => Sys2Proof.Machine.execPush b s
  | .reset => Sys2Proof.Machine.execReset s

end Sys2Proof.Machine
end

