-- ==== Sys2Proof/Machine/Fetch.lean ====
section
/-! DEFINITION. What stands in the place of fetching an instruction: the next turn of the interleaving of the three agents
(00_scope.md R15, 20_memory.md R62). The LFE has no program counter and fetches nothing (10_state.md R27; log 25). -/

namespace Sys2Proof.Machine

/-- The turn to be taken: the schedule's first, or a free one where the schedule is empty (log 1). -/
def State.nextTurn (s : State) : Turn :=
  match s.schedule with
  | [] => Config.freeTurn s.draws
  | t :: _ => t

/-- The state in which the turn's operation runs: the turn is taken off the schedule (or drawn) and its bus outcome is the
environment's choice for this step (R163; log 2). -/
def State.takeTurn (s : State) : State :=
  match s.schedule with
  | [] => { s with outcome := (Config.freeTurn s.draws).outcome, draws := s.draws + 1 }
  | t :: rest => { s with outcome := t.outcome, schedule := rest }

/-- The encoded operation of a turn: an outside agent's own, or for the engine the micro-step its phase selects; in IDLE the
engine has no step to take (R25, R172). -/
def wireOf (p : Phase) : Action → Option Wire
  | .wire w => some w
  | .engine => if p = .idle then none else some (.micro p)

/-- Puts a turn in front of the schedule. -/
def State.withTurn (s : State) (t : Turn) : State := { s with schedule := t :: s.schedule }

end Sys2Proof.Machine
end

