-- ==== Sys2Proof/Machine/Step.lean ====
section
/-! DEFINITION. One step of one agent (00_scope.md R15, 20_memory.md R62): take the next turn, decode its operation, run it. -/

namespace Sys2Proof.Machine

/-- Decode and run one encoded operation. -/
def runWire (w : Wire) (s : State) : Host.Outcome State Fault Refusal :=
  match decode w with
  | .ok i => exec i s
  | .error e => .refused (.undecodable e)

/-- One step. An engine turn in IDLE changes nothing: "between commands it sits in IDLE doing nothing" (R210; log 23). -/
def step (s : State) : Host.Outcome State Fault Refusal :=
  match wireOf s.phase s.nextTurn.action with
  | some w => runWire w s.takeTurn
  | none => .next s.takeTurn.quiet

/-- s with the instruction of a table word as the very next turn (log 25). -/
def State.withFetchWord (s : State) (nbits w : Nat) : State :=
  s.withTurn ⟨.wire (tableWire nbits w), .ack⟩

end Sys2Proof.Machine
end

