-- ==== Sys2Proof/Machine/Ports.lean ====
section
/-! DEFINITION. The port-level binding (10_state.md R39 to R45): every output as a function of the state, and what a clock
edge does with the input pins. It is "one binding of this relation onto a clock" (00_scope.md R15); no meaning reads it. -/

namespace Sys2Proof.Machine

/-- The input pins at a rising clock edge (R40), with rd_idx IDXW bits wide. `took` is no pin: it says whether a read that fails
or that a reset cuts off had its side effect (D16, D25). -/
structure Pins (q : Params) where
  rst : Bool
  cmdValid : Bool
  cmd : Code
  rdIdx : BitVec q.idxw
  fAck : Bool
  fErr : Bool
  fData : Byte
  took : Bool
  deriving DecidableEq, Repr

/-- The state behind the ports: State, and whether f_req is raised (R40, R42; log 30). -/
structure PortState where
  core : State
  fReq : Bool
  deriving DecidableEq, Repr

/-- R38: f_req is 0 after reset. -/
def PortState.reset : PortState := { core := State.reset, fReq := false }

/-! ### Outputs -/

/-- cmd_ready (R41): high exactly when phase is IDLE and rst is 0. -/
def cmdReady (rst : Bool) (s : State) : Bool := decide (s.phase = .idle) && !rst

/-- rsp_valid (R40). -/
def rspValid (s : State) : Bool := s.rsp.isSome

/-- rsp, "meaningful only while rsp_valid" (R40). -/
def rspPort (s : State) : Option Code := s.rsp.map Response.code

/-- The st output, always driven (R44, R83). -/
def stPort (s : State) : Code := s.st.code

/-- The len output, LENW bits, always driven (R44). -/
def lenPort (s : State) : BitVec s.params.lenw := BitVec.ofNat s.params.lenw s.len

/-- The sentence read port with latency 0 (R43, R87): buf[i] for i < len, an unspecified byte elsewhere; k numbers the read,
since "each read is a fresh draw" (U4). Reading changes no state. -/
def State.rdData (s : State) (i : BitVec s.params.idxw) (k : Nat) : Byte :=
  if i.toNat < s.len then s.byteAt i.toNat else Config.undefinedCell k i.toNat

/-- rd_data with RD_LATENCY 0 or 1 (R43): the read of this clock, or of the clock before with its index. DESIGN CHOICE (log 34):
with RD_LATENCY 1 the byte is defined only where its index is below len in both clocks, so that in the first clock after a
TAKE or reset it is a free value, as R143 says of the port after TAKE. -/
def rdPort (before now : State) (iBefore : BitVec before.params.idxw) (iNow : BitVec now.params.idxw) (k : Nat) : Byte :=
  if now.params.rdLatency = 0 then now.rdData iNow k
  else if iBefore.toNat < now.len then before.rdData iBefore k
  else Config.undefinedCell k iBefore.toNat

/-- The engine has a read to make: LVL in QUERY, PULL in DRAIN unless the overflow guard fires first (R113, R115). -/
def readDue (s : State) : Bool := decide (s.phase = .query) || s.popOutstanding

/-- The address byte of the read that is due (R42, R85): 0xC8 for the level, 0x80 for the pop. -/
def fAddr (s : State) : Option Byte :=
  if s.phase = .query then some (physicalByte true 0x9)
  else if s.popOutstanding then some (physicalByte true 0x0)
  else none

/-- f_addr while f_req (R42). -/
def PortState.fAddr (s : PortState) : Option Byte := if s.fReq then Machine.fAddr s.core else none

/-! ### The clock edge (R39) -/

/-- R42: err if f_err, ok(f_data) otherwise, at an edge with f_ack; no answer without f_ack (R236). -/
def Pins.outcome {q : Params} (p : Pins q) : BusOutcome :=
  if p.fAck then (if p.fErr then .err p.took else .ack) else .noAck

/-- What the engine's turn at this edge meets: the pins once its request is raised, no answer before that (R42). -/
def readOutcome (s : PortState) (p : Pins s.core.params) : BusOutcome := if s.fReq then p.outcome else .noAck

/-- What becomes of a read that a reset cuts off (R217, D25): with a request raised, it had its side effect if it was
acknowledged without error at this very edge, and may have had it otherwise. -/
def resetOutcome (s : PortState) (p : Pins s.core.params) : BusOutcome :=
  if s.fReq && (p.fAck && !(p.fErr && s.core.params.hasXerr) || p.took) then .ack else .noAck

/-- The turn the LFE takes at a clock edge: reset first (R39, R196), then an offered command when ready (R41), else the engine. -/
def turnAtEdge (s : PortState) (p : Pins s.core.params) : Turn :=
  if p.rst then ⟨.wire .rst, resetOutcome s p⟩
  else if p.cmdValid && cmdReady p.rst s.core then ⟨.wire (.cmd p.cmd), readOutcome s p⟩
  else ⟨.engine, readOutcome s p⟩

/-- f_req after the edge (R42): raised when a read is due, held until an edge with f_ack, lowered there and at reset. -/
def nextRequest (s : PortState) (p : Pins s.core.params) : Bool :=
  !p.rst && readDue s.core && !(s.fReq && p.fAck)

/-- A next state of the machine, with f_req beside it. -/
def withRequest (f : Bool) : Host.Outcome State Fault Refusal → Host.Outcome PortState Fault Refusal
  | .next t => .next { core := t, fReq := f }
  | .fault e => .fault e
  | .refused e => .refused e

/-- One rising clock edge (R39) of the LFE with the bridge chip at its FIFO port. -/
def clockEdge (s : PortState) (p : Pins s.core.params) : Host.Outcome PortState Fault Refusal :=
  withRequest (nextRequest s p) (step (s.core.withTurn (turnAtEdge s p)))

/-! ### The LFE alone, with the byte on f_data -/

/-- R42: what the engine samples at an edge with its request raised. -/
def sampled (s : PortState) (p : Pins s.core.params) : ReadReply :=
  match readOutcome s p with
  | .ack => .ok p.fData
  | .err _ => if s.core.params.hasXerr then .err else .ok p.fData
  | .noAck => .waiting

/-- The engine's micro-step with the reply taken from the pins (R113, R115). -/
def engineAtPins (r : ReadReply) (s : State) : Host.Outcome State Fault Refusal :=
  match s.phase with
  | .idle => .next s.quiet
  | .query => .next (lvlReply (r, s.quiet))
  | .drain => if s.len = s.params.maxlen then .next s.quiet.raiseOverflow else pullReply (r, s.quiet)

/-- The turn of `turnAtEdge` as the LFE alone takes it: a reset or an accepted command as in the machine, a micro-step with the
reply on the pins. -/
def lfeTurn (s : PortState) (p : Pins s.core.params) : Host.Outcome State Fault Refusal :=
  match (turnAtEdge s p).action with
  | .engine => engineAtPins (sampled s p) s.core
  | .wire .rst => .next (resetWrites s.core)
  | .wire w => runWire w s.core

/-- One rising clock edge of the LFE alone: every read's reply taken from the pins, the bridge chip not touched. -/
def lfeEdge (s : PortState) (p : Pins s.core.params) : Host.Outcome PortState Fault Refusal :=
  withRequest (nextRequest s p) (lfeTurn s p)

/-- The byte the bridge chip puts on f_data for the read that is due (R156, R157, R52). -/
def bridgeData (s : State) : Byte :=
  (s.readRegister (if s.phase = .query then .receiveLevel else s.bridge.registerAtZero)).1

end Sys2Proof.Machine
end

