-- ==== Sys2Proof/Machine/Pseudo.lean ====
section
/-! DEFINITION. The pseudo-operations ACQUIRE and FEED (30_encoding.md R101, R102) and a POLL with the engine steps it causes
(40_poll.md R110), as host behaviour over the operations of R103 (log 33). No meaning uses them. -/

namespace Sys2Proof.Machine

/-! ### A whole POLL with no other agent between -/

/-- Engine steps in a row, each under its own bus outcome, ending when the command has ended (R110, R172). -/
def runEngine : List BusOutcome → State → Host.Outcome State Fault Refusal
  | [], s => .next s
  | o :: os, s =>
    match s.phase with
    | .idle => .next s
    | .query =>
      match execLvl (s.meeting o) with
      | .next s' => runEngine os s'
      | stop => stop
    | .drain =>
      match execPull (s.meeting o) with
      | .next s' => runEngine os s'
      | stop => stop

/-- A whole POLL: the accept step, then the engine's steps under the outcomes given (R110). -/
def pollCycle (os : List BusOutcome) (s : State) : Host.Outcome State Fault Refusal :=
  match execPoll s with
  | .next s' => runEngine os s'
  | stop => stop

/-- Every read of a poll cycle acknowledged: a cycle makes at most 1 LVL and 255 PULL steps (R127). -/
def allAcknowledged : List BusOutcome := List.replicate 256 .ack

/-- FEED(s) of R102: PUSH s[0]; POLL; PUSH s[1]; POLL; ... -/
def feed : List Byte → State → Host.Outcome State Fault Refusal
  | [], s => .next s
  | b :: bytes, s =>
    match execPush b s with
    | .next s1 =>
      match pollCycle allAcknowledged s1 with
      | .next s2 => feed bytes s2
      | stop => stop
    | stop => stop

/-! ### ACQUIRE among the other agents' steps -/

/-- One step while a host runs ACQUIRE: the producer pushes a byte, or the LFE moves, its bus transaction meeting the outcome
given. Where the LFE is idle its move is the accept step of the host's POLL or TAKE. -/
inductive Move where
  | push (b : Byte)
  | lfe (o : BusOutcome)
  deriving DecidableEq, Repr

/-- How ACQUIRE ends (R101), or that it has not ended within the moves given ("There is no timeout"). -/
inductive AcquireResult where
  | sentence (bytes : List Byte) (s : State)
  | framingError (s : State)
  | transportError (s : State)
  | waiting (s : State)
  | stopped
  deriving DecidableEq, Repr

/-- The LFE's own move inside ACQUIRE's loop: POLL is accepted when idle, else the engine's micro-step (R101, R110). -/
def pollingMove (s : State) : Host.Outcome State Fault Refusal :=
  match s.phase with
  | .idle => execPoll s
  | .query => execLvl s
  | .drain => execPull s

/-- "TAKE -> NONE : s ; return ok(s)" of R101; the producer may push before the TAKE is accepted. -/
def acquireTake : List Move → State → AcquireResult
  | [], s => .waiting s
  | .push b :: more, s =>
    match execPush b s with
    | .next t => acquireTake more t
    | _ => .stopped
  | .lfe o :: _, s =>
    match execTake (s.meeting o) with
    | .next t => .sentence (t.emission.getD []) t
    | _ => .stopped

/-- ACQUIRE's loop (R101): POLL until it answers something other than NONE. -/
def acquire : List Move → State → AcquireResult
  | [], s => .waiting s
  | .push b :: more, s =>
    match execPush b s with
    | .next t => acquire more t
    | _ => .stopped
  | .lfe o :: more, s =>
    match pollingMove (s.meeting o) with
    | .next t =>
      match t.rsp with
      | none => acquire more t
      | some .none => acquire more t
      | some .sent => acquireTake more t
      | some .ovf => .framingError t
      | some .xerr => .transportError t
    | _ => .stopped

/-- The moves when the producer pushes each chunk before a POLL and every read is acknowledged: the chunk, then the POLL's accept
step, LVL, and one PULL for each byte. -/
def chunkMoves (chunks : List (List Byte)) : List Move :=
  chunks.flatMap fun c => c.map Move.push ++ List.replicate (c.length + 2) (.lfe .ack)

end Sys2Proof.Machine
end

