-- ==== Sys2Proof/Safety.lean ====
section
/-! DEFINITION. What claims are stated in: the invariants of 10_state.md R33 to R36 and 43_state_machine.md R173, the
single-consumer premise of 20_memory.md R63, the byte ledger of R37 and the big-step reading of 40_poll.md R123. -/

namespace Sys2Proof.Machine

/-- No terminator lies within the first n bytes: "there is no i with 1 <= i < n, b[i-1] == T0 and b[i] == T1" (R34, R35). -/
def noTerminatorBefore (b : Nat → Byte) (n : Nat) : Prop :=
  ∀ i, 1 ≤ i → i < n → ¬(b (i - 1) = Config.t0 ∧ b i = Config.t1)

/-- A byte sequence read by index. -/
def bytesAt (l : List Byte) (i : Nat) : Byte := l.getD i 0

/-- A Sentence value (R90): 2 to MAXLEN bytes, the last two the terminator, which occurs nowhere else. -/
def isSentence (maxlen : Nat) (l : List Byte) : Prop :=
  2 ≤ l.length ∧ l.length ≤ maxlen ∧ terminatorMatch (bytesAt l) l.length = true ∧
    noTerminatorBefore (bytesAt l) (l.length - 1)

/-- The invariant of every reachable state. -/
structure State.Inv (s : State) : Prop where
  /-- R7: the parameters are admissible -/
  params : s.params.wf
  /-- R33 -/
  lenBound : s.len ≤ s.params.maxlen
  /-- the buffer's canonical form -/
  bufCanonical : s.buf.wf
  /-- R50: only cells 0 to MAXLEN - 1 exist -/
  bufInside : ∀ c ∈ s.buf, c.1 < s.params.maxlen
  /-- R20, R23: indices below len hold a defined value -/
  bufFilled : ∀ i, i < s.len → (s.buf.read i).isSome = true
  /-- R34 -/
  accNoTerminator : s.st = .acc → noTerminatorBefore s.byteAt s.len
  /-- R35 -/
  cmpTerminated : s.st = .cmp → s.terminated = true ∧ noTerminatorBefore s.byteAt (s.len - 1)
  /-- R36 -/
  ovfFull : s.st = .ovf → s.len = s.params.maxlen ∧ noTerminatorBefore s.byteAt s.len
  /-- R173: in QUERY and DRAIN the state is ACC -/
  busyAccumulates : s.phase ≠ .idle → s.st = .acc
  /-- R24, R173: rem is 0 outside DRAIN -/
  remOutsideDrain : s.phase ≠ .drain → s.rem = 0
  /-- R115, R173: rem > 0 in DRAIN -/
  remInDrain : s.phase = .drain → s.rem ≠ 0
  /-- R31 -/
  fifoBound : s.bridge.fifo.length ≤ Config.fifoDepth
  /-- R41: a response ends a command -/
  responseIdle : s.rsp ≠ none → s.phase = .idle
  /-- R82: a response other than XERR is the code of st; XERR leaves st ACC -/
  responseCode : ∀ r, s.rsp = some r → (r = .xerr ∧ s.st = .acc) ∨ r = s.st.response
  /-- R90, R141: what TAKE emits is a Sentence -/
  emissionSentence : ∀ l, s.emission = some l → isSentence s.params.maxlen l

/-- R63: while bytes remain to be pulled, the FIFO holds at least that many. -/
def State.Counted (s : State) : Prop := s.phase = .drain → s.rem.toNat ≤ s.bridge.fifo.length

/-- A turn in which software outside the block uses the bus (R164, R227). -/
def isForeign : Action → Bool
  | .wire (.bus _) => true
  | _ => false

/-- The bytes a turn pushes. -/
def pushedBy : Action → List Byte
  | .wire (.line b) => [b]
  | _ => []

/-- buf[0..len) ++ fifo: the bytes that have entered the FIFO and have not been emitted (R37). -/
def State.held (s : State) : List Byte := s.sentence ++ s.bridge.fifo

/-- The premises of R37 on one turn from s to s': no bus transaction returned err, no PUSH was dropped, no other agent popped (or
emptied) the FIFO, no reset fell, and a PULL finds line-control bit 7 clear (R230). -/
structure CleanTurn (s : State) (t : Turn) (s' : State) : Prop where
  noError : ∀ a, s'.bus ≠ some ⟨a, .failed⟩
  noDrop : pushedBy t.action ≠ [] → s.bridge.fifo.length < Config.fifoDepth
  noForeignPop : isForeign t.action = true → s'.bridge.fifo = s.bridge.fifo
  notReset : t.action ≠ .wire .rst
  viewNormal : wireOf s.phase t.action = some (.micro .drain) → s.bridge.latchAccess = false

/-- The ledger of R37 over a run of clean turns: from s0, the bytes pushed and the bytes emitted on the way to s. -/
inductive Delivers (s0 : State) : List Byte → List Byte → State → Prop where
  | start : Delivers s0 [] [] s0
  | turn {p e : List Byte} {s s' : State} (t : Turn) :
      Delivers s0 p e s → step (s.withTurn t) = .next s' → CleanTurn s t s' →
      Delivers s0 (p ++ pushedBy t.action) (e ++ s'.emission.getD []) s'

/-- The states any run of turns can reach from s0. -/
inductive Reaches (s0 : State) : State → Prop where
  | start : Reaches s0 s0
  | turn {s s' : State} (t : Turn) : Reaches s0 s → step (s.withTurn t) = .next s' → Reaches s0 s'

/-- An infinite run: a state and a turn for each step (log 35). -/
structure Run where
  state : Nat → State
  turn : Nat → Turn
  next : ∀ n, step ((state n).withTurn (turn n)) = .next (state (n + 1))

/-- The n-th turn is the engine's. -/
def Run.engineMoves (r : Run) (n : Nat) : Prop := (r.turn n).action = .engine

/-- The n-th turn is the engine's, and the read it makes is answered, with or without error. -/
def Run.answered (r : Run) (n : Nat) : Prop :=
  r.engineMoves n ∧ ((r.state n).meeting (r.turn n).outcome).busOutcome ≠ .noAck

/-- R241, the only liveness the spec assumes, as weak fairness (D23; log 35). -/
structure Run.Fair (r : Run) : Prop where
  /-- "an engine with an enabled step eventually takes it" -/
  engine : ∀ n, (∀ k, n ≤ k → (r.state k).phase ≠ .idle) → ∃ m, n ≤ m ∧ r.engineMoves m
  /-- "a bus read that the environment will answer is eventually answered": a busy engine does not ask for ever in vain -/
  answer : ∀ n, (∀ k, n ≤ k → (r.state k).phase ≠ .idle ∧ ∃ m, k ≤ m ∧ r.engineMoves m) → ∃ m, n ≤ m ∧ r.answered m

/-- R123: the poll cycle as one function of the buffer and the FIFO at the level query (n is the FIFO's length). -/
def bigPoll (maxlen : Nat) : List Byte → List Byte → Framing × List Byte × List Byte × Response
  | buf, [] => (.acc, buf, [], .none)
  | buf, b :: fifo =>
    if buf.length = maxlen then (.ovf, buf, b :: fifo, .ovf)
    else if terminatorMatch (bytesAt (buf ++ [b])) (buf.length + 1) then (.cmp, buf ++ [b], fifo, .sent)
    else bigPoll maxlen (buf ++ [b]) fifo

/-- What an observer of the LFE sees of a state after a poll cycle: st, buf[0..len), fifo, response (R123). -/
def State.pollView (s : State) : Framing × List Byte × List Byte × Option Response :=
  (s.st, s.sentence, s.bridge.fifo, s.rsp)

end Sys2Proof.Machine
end

