-- ==== Sys2Proof/Certificates/Slice0/Obligations.lean ====
section
/-! DEFINITION. The statements for the provers, from the numbered rules of spec/. Each docstring names the rule it formalises;
"choice, log n" marks a clause that rests on the model's own choice. -/

open Sys2Proof Sys2Proof.Machine

/-! ### Encodings (30_encoding.md) -/

/-- R81, R84 to R86, R92, R103: the decoder and the encoder agree in both directions, for every encoded form and every instruction:
a form decodes to i exactly if i is well formed and the form is i's encoding. -/
def Obligations.DecodeAndEncodeAgree : Prop :=
  ∀ (w : Wire) (i : Instr), decode w = .ok i ↔ i.wellFormed = true ∧ encode i = w

/-- R86: read and write of one offset differ in bit 7 only; the map is injective, its image is the bytes whose bits 2:0 are 0, and
decoding is access = byte[7], offset = byte[6:3]. -/
def Obligations.AddressByteDecodesToOffsetAndAccess : Prop :=
  (∀ r : Offset, physicalByte true r ^^^ physicalByte false r = 0x80) ∧
  (∀ (read read' : Bool) (r r' : Offset), physicalByte read r = physicalByte read' r' → read = read' ∧ r = r') ∧
  (∀ a : Byte, a &&& 0x07 = 0 ↔ ∃ read r, a = physicalByte read r) ∧
  (∀ (read : Bool) (r : Offset), isRead (physicalByte read r) = read ∧ offsetOf (physicalByte read r) = r)

/-- R81, R85, R84: words written out from the tables decode to their operations (a sanity statement). -/
def Obligations.WordsOfTheTableDecode : Prop :=
  decode (.cmd 0b01) = .ok .poll ∧ decode (.cmd 0b10) = .ok .take ∧ decode (.bus [0xC8]) = .ok .rdRxlvl ∧
  decode (.bus [0x80]) = .ok .rdRhr ∧ decode (.bus [0x98]) = .ok (.regrd 0x3) ∧
  decode (.bus [0x18, 0x5A]) = .ok (.regwr 0x3 0x5A) ∧ decode (.line 0x41) = .ok (.push 0x41)

/-- R92, U13: an address byte whose bits 2:0 are not 0 selects nothing; step refuses it by name (choice, log 26), whatever follows it
and whatever the state. -/
def Obligations.ReservedAddressByteIsRefused : Prop :=
  ∀ (s : State) (a : Byte) (rest : List Byte) (o : BusOutcome), a &&& 0x07 ≠ 0 →
    step (s.withTurn ⟨.wire (.bus (a :: rest)), o⟩) = .refused (.undecodable (.reservedLowBits a))

/-! ### Steps (00_scope.md R15) -/

/-- R15, R25, R172: a turn of an outside agent whose form decodes to i is exec of i, an engine turn is the micro-step phase selects,
each on the state with this turn's bus outcome latched (choice, logs 1, 2); an engine turn in IDLE changes no register (R210). -/
def Obligations.StepRunsTheDecodedInstruction : Prop :=
  ∀ (s : State) (o : BusOutcome),
    (∀ w i, decode w = .ok i → step (s.withTurn ⟨.wire w, o⟩) = exec i { s with outcome := o }) ∧
    (s.phase = .query → step (s.withTurn ⟨.engine, o⟩) = exec .lvl { s with outcome := o }) ∧
    (s.phase = .drain → step (s.withTurn ⟨.engine, o⟩) = exec .pull { s with outcome := o }) ∧
    (s.phase = .idle → step (s.withTurn ⟨.engine, o⟩) =
      .next { s with outcome := o, rsp := none, emission := none, bus := none })

/-- Choice, log 1: where the schedule is empty the step is the step of a turn, a free value; the counter has advanced. -/
def Obligations.EmptyScheduleTakesAFreeTurn : Prop :=
  ∀ s : State, s.schedule = [] →
    step s = step ({ s with draws := s.draws + 1 }.withTurn (Config.freeTurn s.draws))

/-! ### Host commands (40_poll.md, 41_take_nop.md) -/

/-- R111, R122: POLL accepted from IDLE starts a poll cycle in ACC, answers SENT in CMP and OVF in OVF; nothing else changes. -/
def Obligations.PollIsAcceptedFromIdle : Prop :=
  ∀ s : State, s.phase = .idle →
    (s.st = .acc → exec .poll s = .next { s with phase := .query, rsp := none, emission := none, bus := none }) ∧
    (s.st = .cmp → exec .poll s = .next { s with rsp := some .sent, emission := none, bus := none }) ∧
    (s.st = .ovf → exec .poll s = .next { s with rsp := some .ovf, emission := none, bus := none })

/-- R141: TAKE in CMP emits buf[0..len), empties the buffer, returns to ACC and answers NONE; in every state of the invariant what it
emits has at least two bytes and ends in the terminator. -/
def Obligations.TakeEmitsTheSentence : Prop :=
  ∀ s : State, s.phase = .idle → s.st = .cmp →
    exec .take s = .next { s with
      st := .acc, len := 0, rsp := some .none, emission := some ((List.range s.len).map s.byteAt), bus := none } ∧
    (s.Inv → 2 ≤ s.len ∧ s.byteAt (s.len - 2) = Config.t0 ∧ s.byteAt (s.len - 1) = Config.t1 ∧ s.rem = 0)

/-- R142: TAKE outside CMP emits nothing, changes nothing, and answers NONE in ACC and OVF in OVF. -/
def Obligations.TakeOutsideCompleteChangesNothing : Prop :=
  ∀ s : State, s.phase = .idle →
    (s.st = .acc → exec .take s = .next { s with rsp := some .none, emission := none, bus := none }) ∧
    (s.st = .ovf → exec .take s = .next { s with rsp := some .ovf, emission := none, bus := none })

/-- R144: NOP answers the code of st and changes nothing. -/
def Obligations.NopAnswersTheStatus : Prop :=
  ∀ s : State, s.phase = .idle →
    ∃ r, exec .nop s = .next { s with rsp := some r, emission := none, bus := none } ∧ Response.code r = s.st.code

/-- R145: RSVD does exactly what NOP does, in every state; from IDLE it answers the code of st and changes nothing. -/
def Obligations.RsvdBehavesAsNop : Prop :=
  ∀ s : State, exec .rsvd s = exec .nop s ∧
    (s.phase = .idle →
      ∃ r, exec .rsvd s = .next { s with rsp := some r, emission := none, bus := none } ∧ Response.code r = s.st.code)

/-- R41, R147: a host command offered while phase is not IDLE has no effect and gets no response. -/
def Obligations.CommandWhileBusyHasNoEffect : Prop :=
  ∀ s : State, s.phase ≠ .idle → ∀ i, i = .nop ∨ i = .poll ∨ i = .take ∨ i = .rsvd →
    exec i s = .next { s with rsp := none, emission := none, bus := none }

/-- R111, R141, R142, R144, R145: what no host command changes: the bridge chip, every buffer cell, rem, the parameters; only TAKE
changes st and len or emits, only POLL changes phase, and none uses the bus. -/
def Obligations.HostCommandsFrame : Prop :=
  ∀ (s t : State) (i : Instr), i = .nop ∨ i = .poll ∨ i = .take ∨ i = .rsvd → exec i s = .next t →
    t.bridge = s.bridge ∧ (∀ a, t.buf.read a = s.buf.read a) ∧ t.rem = s.rem ∧ t.params = s.params ∧ t.draws = s.draws ∧
    t.bus = none ∧ (i ≠ .take → t.st = s.st ∧ t.len = s.len ∧ t.emission = none) ∧ (i ≠ .poll → t.phase = s.phase)

/-! ### LVL and PULL (40_poll.md) -/

/-- R113: LVL reads the level once. An error ends the command with XERR, level 0 with NONE, n > 0 sets rem to n and phase to DRAIN;
st, len, buf and the FIFO are unchanged. -/
def Obligations.LvlQueriesTheLevel : Prop :=
  ∀ s : State, s.phase = .query → s.bridge.fifo.length ≤ Config.fifoDepth →
    (∀ took, s.busOutcome = .err took → exec .lvl s =
      .next { s with rem := 0, phase := .idle, rsp := some .xerr, emission := none, bus := some ⟨0xC8, .failed⟩ }) ∧
    (s.busOutcome = .ack → s.bridge.fifo = [] → exec .lvl s =
      .next { s with rem := 0, phase := .idle, rsp := some .none, emission := none, bus := some ⟨0xC8, .data 0⟩ }) ∧
    (s.busOutcome = .ack → s.bridge.fifo ≠ [] → ∃ n : Byte, n.toNat = s.bridge.fifo.length ∧ exec .lvl s =
      .next { s with rem := n, phase := .drain, rsp := none, emission := none, bus := some ⟨0xC8, .data n⟩ })

/-- R114: when the level is zero the cycle ends at once with NONE, nothing is popped, and st, len and buf are what they were. -/
def Obligations.LevelZeroNeverPops : Prop :=
  ∀ s : State, s.phase = .idle → s.st = .acc → s.rem = 0 → s.bridge.fifo = [] →
    pollCycle allAcknowledged s = .next { s with
      outcome := .ack, rsp := some .none, emission := none, bus := some ⟨physicalByte true 0x9, .data 0⟩ }

/-- R116: a PULL with len = MAXLEN pops nothing, sets OVF, clears rem, returns to IDLE and answers OVF; no bus access, for every
outcome the environment would have given. -/
def Obligations.PullRaisesOverflowWhenFull : Prop :=
  ∀ s : State, s.phase = .drain → s.len = s.params.maxlen →
    exec .pull s =
      .next { s with st := .ovf, rem := 0, phase := .idle, rsp := some .ovf, emission := none, bus := none }

/-- R117: a failed read ends the poll cycle with XERR; st, len and buf keep what they had; a failed pop may or may not have removed the
FIFO's head, and the failed pop's transaction is the only thing seen of it. -/
def Obligations.TransportErrorEndsTheCycle : Prop :=
  ∀ (s : State) (took : Bool), s.busOutcome = .err took →
    (s.phase = .query → exec .lvl s =
      .next { s with rem := 0, phase := .idle, rsp := some .xerr, emission := none, bus := some ⟨0xC8, .failed⟩ }) ∧
    (s.phase = .drain → s.len ≠ s.params.maxlen →
      ∃ f d, (f = s.bridge.fifo ∨ f = s.bridge.fifo.tail) ∧ exec .pull s =
        .next { s with
          bridge := { s.bridge with fifo := f }, rem := 0, phase := .idle, rsp := some .xerr, emission := none,
          bus := some ⟨0x80, .failed⟩, draws := d })

/-- R118 to R121: PULL on a FIFO with a byte stores that byte at buf[len], whatever its value; len grows by one, rem shrinks by one;
a match gives CMP and SENT with rem 0 and the rest left in the FIFO, the end of the batch gives NONE, else the drain goes on. -/
def Obligations.PullAppendsThePoppedByte : Prop :=
  ∀ (s : State) (b : Byte) (rest : List Byte), s.phase = .drain → s.len < s.params.maxlen → s.busOutcome = .ack →
    s.bridge.latchAccess = false → s.bridge.fifo = b :: rest →
    ∀ a : State, a = { s with
        buf := s.buf.write s.len b, len := s.len + 1, rem := s.rem - 1, bridge := { s.bridge with fifo := rest },
        rsp := none, emission := none, bus := some ⟨0x80, .data b⟩ } →
      (terminatorMatch a.byteAt a.len = true →
        exec .pull s = .next { a with st := .cmp, rem := 0, phase := .idle, rsp := some .sent }) ∧
      (terminatorMatch a.byteAt a.len = false → a.rem = 0 →
        exec .pull s = .next { a with phase := .idle, rsp := some .none }) ∧
      (terminatorMatch a.byteAt a.len = false → a.rem ≠ 0 → exec .pull s = .next a)

/-- R157, R188, D29: a PULL that meets an empty FIFO appends a byte nobody can predict (a free value), the FIFO stays empty, and
R119 to R121 then decide on that byte. -/
def Obligations.PullOnEmptyFifoAppendsADraw : Prop :=
  ∀ s : State, s.phase = .drain → s.len < s.params.maxlen → s.busOutcome = .ack → s.bridge.latchAccess = false →
    s.bridge.fifo = [] →
    ∀ a : State, a = { s with
        buf := s.buf.write s.len (Config.freeByte s.draws), len := s.len + 1, rem := s.rem - 1, draws := s.draws + 1,
        rsp := none, emission := none, bus := some ⟨0x80, .data (Config.freeByte s.draws)⟩ } →
      exec .pull s = .next (
        if terminatorMatch a.byteAt a.len = true then { a with st := .cmp, rem := 0, phase := .idle, rsp := some .sent }
        else if a.rem = 0 then { a with phase := .idle, rsp := some .none }
        else a)

/-- R52, R230: with line-control bit 7 set a PULL appends divisor-latch-low and does not drain the FIFO; R119 to R121 then decide on
that byte. -/
def Obligations.PullUnderLatchAccessAppendsDivisorLow : Prop :=
  ∀ s : State, s.phase = .drain → s.len < s.params.maxlen → s.busOutcome = .ack → s.bridge.latchAccess = true →
    ∀ a : State, a = { s with
        buf := s.buf.write s.len s.bridge.divisorLow, len := s.len + 1, rem := s.rem - 1,
        rsp := none, emission := none, bus := some ⟨0x80, .data s.bridge.divisorLow⟩ } →
      exec .pull s = .next (
        if terminatorMatch a.byteAt a.len = true then { a with st := .cmp, rem := 0, phase := .idle, rsp := some .sent }
        else if a.rem = 0 then { a with phase := .idle, rsp := some .none }
        else a)

/-- R236, U14, R42: a read that is not answered leaves the engine where it is: phase, rem, the buffer and the FIFO unchanged, no
response; a transaction of software outside the block that is not answered changes nothing, the bridge chip included. -/
def Obligations.UnansweredReadHoldsTheEngine : Prop :=
  ∀ s : State, s.busOutcome = .noAck →
    (s.phase = .query → exec .lvl s = .next { s with rsp := none, emission := none, bus := none }) ∧
    (s.phase = .drain → s.len ≠ s.params.maxlen →
      exec .pull s = .next { s with rsp := none, emission := none, bus := none }) ∧
    exec .rdRxlvl s = .next { s with emission := none, bus := none } ∧
    exec .rdRhr s = .next { s with emission := none, bus := none } ∧
    (∀ r v, (s.bridge.registerAt r).isSome = true →
      exec (.regrd r) s = .next { s with emission := none, bus := none } ∧
      exec (.regwr r v) s = .next { s with emission := none, bus := none })

/-- R171, R28, R88: after an append the match holds exactly if seen_t0 held and the byte is T1, and seen_t0 then holds exactly if
the byte is T0. -/
def Obligations.RecogniserFollowsTheByteClasses : Prop :=
  ∀ (s : State) (b : Byte),
    ((appendByte b s).terminated = true ↔ seenT0 s.byteAt s.len = true ∧ byteClass b = .t1) ∧
    (seenT0 (appendByte b s).byteAt (appendByte b s).len = true ↔ byteClass b = .t0)

/-- R23, R118, R160: what LVL and PULL leave unchanged: every buffer cell but buf[len] (for LVL every cell), every bridge register, the
FIFO but for its head, the parameters, the schedule; LVL leaves st and len too; neither emits. -/
def Obligations.EngineStepsFrame : Prop :=
  ∀ (s t : State),
    (exec .lvl s = .next t →
      t.st = s.st ∧ t.len = s.len ∧ (∀ a, t.buf.read a = s.buf.read a) ∧ t.bridge = s.bridge ∧ t.params = s.params ∧
      t.outcome = s.outcome ∧ t.schedule = s.schedule ∧ t.draws = s.draws ∧ t.emission = none) ∧
    (exec .pull s = .next t →
      (∀ a, a ≠ s.len → t.buf.read a = s.buf.read a) ∧ (t.len = s.len → ∀ a, t.buf.read a = s.buf.read a) ∧
      (t.len = s.len ∨ t.len = s.len + 1) ∧
      (∃ f, t.bridge = { s.bridge with fifo := f } ∧ (f = s.bridge.fifo ∨ f = s.bridge.fifo.tail)) ∧
      t.params = s.params ∧ t.outcome = s.outcome ∧ t.schedule = s.schedule ∧ t.emission = none)

/-- R160, R42, R85: f_addr takes only the values 0xC8 and 0x80; and of the LFE's own steps only LVL and PULL touch the bus, LVL at 0xC8
and PULL at 0x80, each with the address the port drives, and never to write. -/
def Obligations.EngineDrivesOnlyTwoAddresses : Prop :=
  (∀ (s : State) (a : Byte), fAddr s = some a → s.phase = .query ∧ a = 0xC8 ∨ s.phase = .drain ∧ a = 0x80) ∧
  (∀ (s : PortState) (a : Byte), s.fAddr = some a → a = 0xC8 ∨ a = 0x80) ∧
  (∀ (i : Instr) (s t : State) (x : BusTxn),
    i = .nop ∨ i = .poll ∨ i = .take ∨ i = .rsvd ∨ i = .lvl ∨ i = .pull ∨ i = .reset → exec i s = .next t → t.bus = some x →
    (i = .lvl ∧ x.addr = 0xC8 ∨ i = .pull ∧ x.addr = 0x80) ∧ fAddr s = some x.addr ∧ x.result ≠ .written)

/-! ### Bus transactions and the producer (42_fifo_transactions.md) -/

/-- R156: RD_RXLVL returns the occupancy, or fails; the FIFO and everything else is unchanged. -/
def Obligations.RdRxlvlReturnsTheOccupancy : Prop :=
  ∀ s : State, s.bridge.fifo.length ≤ Config.fifoDepth →
    (s.busOutcome = .ack → ∃ n : Byte, n.toNat = s.bridge.fifo.length ∧
      exec .rdRxlvl s = .next { s with emission := none, bus := some ⟨0xC8, .data n⟩ }) ∧
    (∀ took, s.busOutcome = .err took →
      exec .rdRxlvl s = .next { s with emission := none, bus := some ⟨0xC8, .failed⟩ })

/-- R157: RD_RHR returns and removes the head of the FIFO; on an empty FIFO it returns a draw and the FIFO stays empty; a failed one
may or may not have removed the head. Line-control bit 7 is clear. -/
def Obligations.RdRhrPopsTheHead : Prop :=
  ∀ s : State, s.bridge.latchAccess = false →
    (∀ b rest, s.busOutcome = .ack → s.bridge.fifo = b :: rest →
      exec .rdRhr s = .next { s with
        bridge := { s.bridge with fifo := rest }, emission := none, bus := some ⟨0x80, .data b⟩ }) ∧
    (s.busOutcome = .ack → s.bridge.fifo = [] →
      exec .rdRhr s = .next { s with
        emission := none, bus := some ⟨0x80, .data (Config.freeByte s.draws)⟩, draws := s.draws + 1 }) ∧
    (∀ took, s.busOutcome = .err took →
      ∃ f d, f = (if took then s.bridge.fifo.tail else s.bridge.fifo) ∧
        exec .rdRhr s = .next { s with
          bridge := { s.bridge with fifo := f }, emission := none, bus := some ⟨0x80, .failed⟩, draws := d })

/-- R158, R30, R52: an acknowledged REGRD returns the byte of the register the offset selects in the view of line-control bit 7; a
status register's byte, and that of offset 0x01 in the normal view, where the map names no register, is a draw (choice, log 8). -/
def Obligations.RegrdReturnsTheSelectedRegister : Prop :=
  ∀ s : State, s.busOutcome = .ack →
    (∀ r v, (r, v) ∈ [((0x3 : Offset), s.bridge.lineControl), (0x4, s.bridge.modemControl)] →
      exec (.regrd r) s = .next { s with emission := none, bus := some ⟨physicalByte true r, .data v⟩ }) ∧
    (s.bridge.latchAccess = true → ∀ r v,
      (r, v) ∈ [((0x0 : Offset), s.bridge.divisorLow), (0x1, s.bridge.divisorHigh), (0x2, s.bridge.enhancedFeature)] →
      exec (.regrd r) s = .next { s with emission := none, bus := some ⟨physicalByte true r, .data v⟩ }) ∧
    (s.bridge.latchAccess = false →
      exec (.regrd 0x2) s =
        .next { s with emission := none, bus := some ⟨0x90, .data s.bridge.fifoControl⟩ }) ∧
    exec (.regrd 0x7) s = (if s.bridge.triggerValid = true
      then .next { s with emission := none, bus := some ⟨0xB8, .data s.bridge.triggerLevel⟩ }
      else .refused (.noRegister 0x7)) ∧
    (∀ r, r = (0x5 : Offset) ∨ r = 0x6 ∨ r = 0x8 ∨ (r = 0x1 ∧ s.bridge.latchAccess = false) →
      exec (.regrd r) s = .next { s with
        emission := none, bus := some ⟨physicalByte true r, .data (Config.freeByte s.draws)⟩,
        draws := s.draws + 1 }) ∧
    exec (.regrd 0x0) s = exec .rdRhr s ∧ exec (.regrd 0x9) s = exec .rdRxlvl s

/-- R159, R30, R52: an acknowledged REGWR writes the one register the offset selects; a write of offset 0x00 in the normal view goes to
the transmit path, and status registers, the levels and offset 0x01 in the normal view keep no written byte (choice, logs 16, 20, 29).
The FIFO reset bit clears itself (R30, R222). -/
def Obligations.RegwrWritesTheSelectedRegister : Prop :=
  ∀ (s : State) (v : Byte), s.busOutcome = .ack →
    ∀ w : Offset → Bridge → Host.Outcome State Fault Refusal,
      w = (fun r c => .next { s with
        bridge := c, emission := none, bus := some ⟨physicalByte false r, .written⟩ }) →
      exec (.regwr 0x3 v) s = w 0x3 { s.bridge with lineControl := v } ∧
      exec (.regwr 0x4 v) s = w 0x4 { s.bridge with modemControl := v } ∧
      (∀ r, r = (0x5 : Offset) ∨ r = 0x6 ∨ r = 0x8 ∨ r = 0x9 ∨ (r = 0x1 ∧ s.bridge.latchAccess = false) →
        exec (.regwr r v) s = w r s.bridge) ∧
      exec (.regwr 0x7 v) s =
        (if s.bridge.triggerValid = true then w 0x7 { s.bridge with triggerLevel := v } else .refused (.noRegister 0x7)) ∧
      (s.bridge.latchAccess = true →
        exec (.regwr 0x0 v) s = w 0x0 { s.bridge with divisorLow := v } ∧
        exec (.regwr 0x1 v) s = w 0x1 { s.bridge with divisorHigh := v } ∧
        exec (.regwr 0x2 v) s = w 0x2 { s.bridge with enhancedFeature := v }) ∧
      (s.bridge.latchAccess = false →
        exec (.regwr 0x0 v) s = w 0x0 { s.bridge with transmitted := s.bridge.transmitted ++ [v] } ∧
        exec (.regwr 0x2 v) s = w 0x2 { s.bridge with
          fifoControl := fifoControlStored v
          fifo := if fifoControlResets v = true then [] else s.bridge.fifo }) ∧
      fifoControlResets (fifoControlStored v) = false

/-- R158, R159, R163: a register transaction that fails says so on the bus and gives no byte; a failed write has reached the register only if
the environment says it took effect (choice, log 21), and nothing of the LFE changes. -/
def Obligations.FailedRegisterTransactionIsReported : Prop :=
  ∀ (s : State) (r : Offset) (reg : BridgeRegister) (v : Byte) (took : Bool),
    s.busOutcome = .err took → s.bridge.registerAt r = some reg →
    (∃ f d, (f = s.bridge.fifo ∨ f = s.bridge.fifo.tail) ∧ (took = false → f = s.bridge.fifo ∧ d = s.draws) ∧
      exec (.regrd r) s = .next { s with
        bridge := { s.bridge with fifo := f }, emission := none,
        bus := some ⟨physicalByte true r, .failed⟩, draws := d }) ∧
    exec (.regwr r v) s = .next { s with
      bridge := if took then s.bridge.writeRegister reg v else s.bridge, emission := none,
      bus := some ⟨physicalByte false r, .failed⟩ }

/-- U13, R238: at 0x0A to 0x0F, and at 0x07 while it is not valid, a read and a write are refused by name (log 19), in every such
state; at every other offset, at 0x07 while it is valid too, both complete, in either view (R59). 0x07 is valid only when the enhanced
features (log 18) and modem-control bit 2 are both set (R30). -/
def Obligations.OffsetWithoutRegisterIsRefused : Prop :=
  ∀ (s : State) (r : Offset) (v : Byte),
    (if 0xA ≤ r.toNat ∨ (r = 0x7 ∧ s.bridge.triggerValid = false)
      then exec (.regrd r) s = .refused (.noRegister r) ∧ exec (.regwr r v) s = .refused (.noRegister r)
      else (∃ t, exec (.regrd r) s = .next t) ∧ ∃ t, exec (.regwr r v) s = .next t) ∧
    (s.bridge.triggerValid = true ↔
      Config.enhancedEnabled s.bridge.enhancedFeature = true ∧ s.bridge.modemControl.getLsbD 2 = true)

/-- R164, R10: no bus transaction of software outside the block changes any of the LFE's five elements or its response port; a read
changes no bridge register. -/
def Obligations.ForeignTransactionsFrame : Prop :=
  ∀ (i : Instr) (s t : State), (i = .rdRxlvl ∨ i = .rdRhr ∨ (∃ r, i = .regrd r) ∨ ∃ r v, i = .regwr r v) → exec i s = .next t →
    t.st = s.st ∧ t.len = s.len ∧ (∀ a, t.buf.read a = s.buf.read a) ∧ t.rem = s.rem ∧ t.phase = s.phase ∧
    t.params = s.params ∧ t.outcome = s.outcome ∧ t.schedule = s.schedule ∧ t.rsp = s.rsp ∧ t.emission = none ∧
    ((∀ r v, i ≠ .regwr r v) →
      ∃ f, t.bridge = { s.bridge with fifo := f } ∧ (f = s.bridge.fifo ∨ f = s.bridge.fifo.tail))

/-- Choice, log 16: a byte written to line-control, modem-control or, under latch access, a divisor latch is what the next read of it
returns, whatever the state between holds of the FIFO. -/
def Obligations.RegisterReadsBackWhatWasWritten : Prop :=
  ∀ (s t : State) (r : Offset) (v : Byte), s.busOutcome = .ack →
    r = 0x3 ∨ r = 0x4 ∨ (s.bridge.latchAccess = true ∧ (r = 0x0 ∨ r = 0x1)) → exec (.regwr r v) s = .next t →
    ∃ u, exec (.regrd r) t = .next u ∧ u.bus = some ⟨physicalByte true r, .data v⟩

/-- R161, R162: PUSH appends at the tail while the FIFO is not full; when it is full the new byte or the oldest is dropped, by one
policy that no state chooses; nothing else changes. -/
def Obligations.PushAppendsAtTheTail : Prop :=
  (∀ (s : State) (b : Byte), s.bridge.fifo.length < Config.fifoDepth →
    exec (.push b) s = .next { s with
      bridge := { s.bridge with fifo := s.bridge.fifo ++ [b] }, emission := none, bus := none }) ∧
  ((∀ (s : State) (b : Byte), Config.fifoDepth ≤ s.bridge.fifo.length →
      exec (.push b) s = .next { s with emission := none, bus := none }) ∨
   (∀ (s : State) (b : Byte), Config.fifoDepth ≤ s.bridge.fifo.length →
      exec (.push b) s = .next { s with
        bridge := { s.bridge with fifo := s.bridge.fifo.tail ++ [b] }, emission := none, bus := none }))

/-! ### Reset (10_state.md R38, 70_reset_and_hazards.md) -/

/-- R38, R7: State.reset has the values of R38's table, no request and no response, every buffer read is a draw, and the parameters
have R7's defaults. -/
def Obligations.ResetStateHasTheValuesOfTheTable : Prop :=
  State.reset.st = .acc ∧ State.reset.len = 0 ∧ State.reset.rem = 0 ∧ State.reset.phase = .idle ∧
  rspValid State.reset = false ∧ PortState.reset = ⟨State.reset, false⟩ ∧
  (∀ i k, State.reset.rdData i k = Config.undefinedCell k i.toNat) ∧
  State.reset.params.maxlen = 256 ∧ State.reset.params.hasXerr = true ∧ State.reset.params.lenw = 9 ∧
  State.reset.params.idxw = 8

/-- R216, R217, R219: in every state RESET completes, sets st, len, rem and phase, gives no response, writes no buffer cell, and leaves the
bridge chip but for the FIFO's head when a pop was outstanding. -/
def Obligations.ResetCompletesInEveryState : Prop :=
  ∀ s : State, ∃ f d, exec .reset s = .next { s with
      st := .acc, len := 0, rem := 0, phase := .idle, rsp := none, emission := none, bus := none,
      bridge := { s.bridge with fifo := f }, draws := d } ∧
    (f = s.bridge.fifo ∨ f = s.bridge.fifo.tail) ∧
    (s.phase ≠ .drain ∨ s.len = s.params.maxlen ∨ s.busOutcome = .noAck → f = s.bridge.fifo ∧ d = s.draws)

/-- R196, R39, R41: at a clock edge reset comes first, then an offered command when the engine is ready, then the engine, which in IDLE
does nothing but end the response pulse; cmd_ready is IDLE without reset, a command offered while it is low changes nothing, and an
accepted one answers at that edge, with rsp_valid high, or begins a poll cycle. -/
def Obligations.ClockEdgePrecedence : Prop :=
  ∀ (s : PortState) (p : Pins s.core.params),
    (p.rst = true → clockEdge s p = withRequest false (exec .reset { s.core with outcome := resetOutcome s p })) ∧
    (p.rst = false → p.cmdValid = true → s.core.phase = .idle →
      clockEdge s p = withRequest false (exec (decodeCommand p.cmd) { s.core with outcome := readOutcome s p }) ∧
      ∃ t, clockEdge s p = .next t ∧
        (t.core.phase = .query ∧ rspValid t.core = false ∨ t.core.phase = .idle ∧ rspValid t.core = true)) ∧
    (p.rst = false → p.cmdValid = false → s.core.phase = .idle →
      clockEdge s p = .next ⟨{ s.core with outcome := readOutcome s p, rsp := none, emission := none, bus := none }, false⟩) ∧
    (p.rst = false → s.core.phase = .query →
      clockEdge s p = withRequest (nextRequest s p) (exec .lvl { s.core with outcome := readOutcome s p })) ∧
    (p.rst = false → s.core.phase = .drain →
      clockEdge s p = withRequest (nextRequest s p) (exec .pull { s.core with outcome := readOutcome s p })) ∧
    (cmdReady p.rst s.core = true ↔ s.core.phase = .idle ∧ p.rst = false) ∧
    (cmdReady p.rst s.core = false → clockEdge s p = clockEdge s { p with cmdValid := false })

/-- R42, R217, R236: f_req is raised at the edge after a read becomes due, is held with its address until an edge with f_ack, is lowered
there and at reset, and no transaction completes before it is raised; the LFE alone, with the bridge chip's byte on f_data, does to
its own elements what it does in the machine; a reset without f_ack admits both fates of a pop that was requested (D25). -/
def Obligations.RequestHandshake : Prop :=
  ∀ (s : PortState) (p : Pins s.core.params), s.core.Inv →
    (∀ t, clockEdge s p = .next t →
      (p.rst = true → t.fReq = false) ∧
      (p.rst = false → s.fReq = false → t.fReq = readDue s.core ∧ t.core.bus = none) ∧
      (p.rst = false → s.fReq = true → readDue s.core = true → p.fAck = false →
        t.fReq = true ∧ fAddr t.core = fAddr s.core ∧ t.core.bus = none) ∧
      (p.fAck = true → s.fReq = true → t.fReq = false) ∧
      (t.fReq = true → readDue t.core = true)) ∧
    (p.fData = bridgeData s.core → ∃ t u, clockEdge s p = .next t ∧ lfeEdge s p = .next u ∧ u.fReq = t.fReq ∧
      u.core.st = t.core.st ∧ u.core.len = t.core.len ∧ u.core.buf = t.core.buf ∧ u.core.rem = t.core.rem ∧
      u.core.phase = t.core.phase ∧ u.core.rsp = t.core.rsp ∧ u.core.emission = t.core.emission ∧
      u.core.bridge = s.core.bridge) ∧
    (p.rst = true → s.fReq = true → p.fAck = false → s.core.phase = .drain → s.core.len ≠ s.core.params.maxlen →
      s.core.bridge.latchAccess = false →
      ∃ t, clockEdge s p = .next t ∧ t.core.bridge.fifo = if p.took then s.core.bridge.fifo.tail else s.core.bridge.fifo)

/-! ### Invariants -/

/-- The invariant holds right after reset (R33 to R36, R38, R173). -/
def Obligations.InvariantHoldsAtReset : Prop := State.reset.Inv ∧ State.reset.Counted

/-- R33 to R36, R82, R90, R173: every step from every state of the invariant, whichever agent moves and whatever the environment
chooses, keeps it. -/
def Obligations.EveryStepKeepsTheInvariant : Prop :=
  ∀ s t : State, s.Inv → step s = .next t → t.Inv

/-- R50, R116: no step from a state of the invariant writes outside the buffer, and so none faults. -/
def Obligations.NoStepFaultsUnderTheInvariant : Prop :=
  ∀ s : State, s.Inv → ∀ f, step s ≠ .fault f

/-- R63: with the engine the only consumer (software outside the block leaves the FIFO as it is), the FIFO keeps at least rem bytes
while a batch is drained. -/
def Obligations.LevelMonotonicity : Prop :=
  ∀ s t : State, s.Inv → s.Counted → step s = .next t →
    (isForeign s.nextTurn.action = true → t.bridge.fifo = s.bridge.fifo) → t.Counted

/-- R226, R63, R114: under the invariant and the single-consumer count, a PULL that completes its read pops a byte that was there. -/
def Obligations.EngineNeverPopsAnEmptyFifo : Prop :=
  ∀ s t : State, s.Inv → s.Counted → s.phase = .drain → s.bridge.latchAccess = false →
    s.bridge.fifo ≠ [] ∧
    (∀ x v, exec .pull s = .next t → t.bus = some ⟨x, .data v⟩ → s.bridge.fifo = v :: t.bridge.fifo)

/-- R37: over every run of clean turns, those of software outside the block that leave the FIFO among them, from every state of the
invariant: the bytes held at the start and those pushed are exactly the bytes emitted and those held at the end, in order. -/
def Obligations.BytesAreConserved : Prop :=
  ∀ (s0 s : State) (p e : List Byte), s0.Inv → s0.Counted → Delivers s0 p e s → s0.held ++ p = e ++ s.held

/-- R29, R32: no instruction writes a parameter. -/
def Obligations.ParametersNeverChange : Prop :=
  ∀ (i : Instr) (s t : State), exec i s = .next t → t.params = s.params

/-- R23, R22: only PULL writes the buffer, and only at index len; len changes only by one in PULL, to 0 in TAKE and RESET. -/
def Obligations.OnlyPullWritesTheBuffer : Prop :=
  ∀ (i : Instr) (s t : State), exec i s = .next t →
    (∀ a, t.buf.read a ≠ s.buf.read a → i = .pull ∧ a = s.len ∧ t.len = s.len + 1) ∧
    (t.len ≠ s.len → (i = .pull ∧ t.len = s.len + 1) ∨ ((i = .take ∨ i = .reset) ∧ t.len = 0))

/-- R170, R21: st changes only by the rows of the table: PULL to OVF when full, PULL to CMP on a match, TAKE from CMP to ACC, RESET. -/
def Obligations.FramingStateFollowsTheTable : Prop :=
  ∀ (i : Instr) (s t : State), s.Inv → exec i s = .next t → t.st ≠ s.st →
    (i = .reset ∧ t.st = .acc ∧ t.len = 0) ∨
    (i = .pull ∧ s.st = .acc ∧ t.st = .ovf ∧ s.len = s.params.maxlen ∧ t.len = s.len ∧ t.rem = 0) ∨
    (i = .pull ∧ s.st = .acc ∧ t.st = .cmp ∧ t.len = s.len + 1 ∧ s.byteAt (s.len - 1) = Config.t0 ∧
      t.byteAt s.len = Config.t1 ∧ t.rem = 0) ∨
    (i = .take ∧ s.st = .cmp ∧ t.st = .acc ∧ t.len = 0)

/-- R172, R41, R82: phase and the response change only by the rows of the table: exactly the step that ends a command answers, and with
the code of st or XERR; a step of the producer or of software outside the block changes neither. -/
def Obligations.PhaseAndResponseFollowTheTable : Prop :=
  ∀ (i : Instr) (s t : State), s.Inv → exec i s = .next t →
    (((∃ b, i = .push b) ∨ i = .rdRxlvl ∨ i = .rdRhr ∨ (∃ r, i = .regrd r) ∨ ∃ r v, i = .regwr r v) ∧
      t.phase = s.phase ∧ t.rsp = s.rsp) ∨
    ((i = .lvl ∨ i = .pull ∨ s.phase ≠ .idle ∧ (i = .nop ∨ i = .poll ∨ i = .take ∨ i = .rsvd)) ∧
      t.phase = s.phase ∧ t.rsp = none) ∨
    (i = .reset ∧ t.phase = .idle ∧ t.rsp = none) ∨
    (i = .poll ∧ s.phase = .idle ∧ s.st = .acc ∧ t.phase = .query ∧ t.rsp = none) ∨
    ((i = .nop ∨ i = .poll ∨ i = .take ∨ i = .rsvd) ∧ (i = .poll → s.st ≠ .acc) ∧ s.phase = .idle ∧ t.phase = .idle ∧
      t.rsp = some t.st.response) ∨
    (i = .lvl ∧ s.phase = .query ∧ t.phase = .idle ∧ (t.rsp = some .xerr ∨ t.rsp = some .none)) ∨
    (i = .lvl ∧ s.phase = .query ∧ t.phase = .drain ∧ t.rem ≠ 0 ∧ t.rsp = none) ∨
    (i = .pull ∧ s.phase = .drain ∧ t.phase = .idle ∧ (t.rsp = some t.st.response ∨ t.rsp = some .xerr ∧ t.st = .acc))

/-- R199, R201: once st is OVF every operation but RESET leaves st, len, rem, phase and the buffer; every host command answers OVF and uses
no bus. -/
def Obligations.OverflowIsSticky : Prop :=
  ∀ (i : Instr) (s t : State), s.Inv → s.st = .ovf → i ≠ .reset → exec i s = .next t →
    t.st = .ovf ∧ t.len = s.len ∧ t.rem = s.rem ∧ t.phase = .idle ∧ (∀ a, t.buf.read a = s.buf.read a) ∧ t.emission = none ∧
    (i = .nop ∨ i = .poll ∨ i = .take ∨ i = .rsvd → t.rsp = some .ovf ∧ t.bus = none ∧ t.bridge = s.bridge)

/-- R176, R216: a partial buffer in ACC loses no byte except by RESET: no other operation shortens it. -/
def Obligations.OnlyResetDiscardsAPartialBuffer : Prop :=
  ∀ (i : Instr) (s t : State), s.Inv → s.st = .acc → i ≠ .reset → exec i s = .next t →
    ∃ more, t.sentence = s.sentence ++ more ∧ more.length ≤ 1

/-- R163, R40: where the port cannot report a failure (HAS_XERR false) no operation answers XERR, so that none is ever shown that was
not shown before, and no transaction fails. -/
def Obligations.WithoutErrorPortNothingFails : Prop :=
  ∀ (i : Instr) (s t : State), s.params.hasXerr = false → exec i s = .next t →
    (s.rsp ≠ some .xerr → t.rsp ≠ some .xerr) ∧ ∀ x, t.bus ≠ some ⟨x, .failed⟩

/-! ### Ports (10_state.md R43, R44, 40_poll.md R124) -/

/-- R124, R44, R7: len fits in LENW bits, so the len output shows the register's value. -/
def Obligations.LenPortShowsTheLength : Prop :=
  ∀ s : State, s.Inv → s.params.maxlen < 2 ^ s.params.lenw ∧ (lenPort s).toNat = s.len

/-- R43, R87, R143, R237: IDXW bits reach every index of the buffer; below len the read port gives the sentence's bytes in order, the very
bytes TAKE emits; at or above len a draw. With RD_LATENCY 1 the port gives the read of the clock before, where the index was below
len in both clocks, and a draw elsewhere, as after a TAKE (choice, log 34); with RD_LATENCY 0 the read of this clock. -/
def Obligations.ReadPortShowsTheSentence : Prop :=
  (∀ (s : State) (k : Nat), s.Inv →
    (List.range s.len).map (fun i => s.rdData (BitVec.ofNat s.params.idxw i) k) = s.sentence ∧
    (s.phase = .idle → s.st = .cmp → ∃ t, exec .take s = .next t ∧
      t.emission = some ((List.range s.len).map fun i => s.rdData (BitVec.ofNat s.params.idxw i) k)) ∧
    (∀ i, s.len ≤ i.toNat → s.rdData i k = Config.undefinedCell k i.toNat)) ∧
  (∀ (before now : State) (i : BitVec before.params.idxw) (j : BitVec now.params.idxw) (k : Nat),
    (now.params.rdLatency = 0 → rdPort before now i j k = now.rdData j k) ∧
    (now.params.rdLatency = 1 → rdPort before now i j k =
      if i.toNat < before.len ∧ i.toNat < now.len then before.byteAt i.toNat else Config.undefinedCell k i.toNat))

/-! ### The poll cycle as a whole (40_poll.md R123 to R127, 30_encoding.md R101, R102) -/

/-- R123: a POLL accepted in ACC with every read acknowledged and no other agent between is the big-step function of the buffer and
the FIFO. -/
def Obligations.PollCycleIsTheBigStepFunction : Prop :=
  ∀ s : State, s.Inv → s.phase = .idle → s.st = .acc → s.bridge.latchAccess = false →
    ∃ t, pollCycle allAcknowledged s = .next t ∧ t.phase = .idle ∧
      t.st = (bigPoll s.params.maxlen s.sentence s.bridge.fifo).1 ∧
      t.sentence = (bigPoll s.params.maxlen s.sentence s.bridge.fifo).2.1 ∧
      t.bridge = { s.bridge with fifo := (bigPoll s.params.maxlen s.sentence s.bridge.fifo).2.2.1 } ∧
      t.rsp = some (bigPoll s.params.maxlen s.sentence s.bridge.fifo).2.2.2

/-- R127, R117, R128: a poll cycle whose reads are all answered, each with or without an error of its own, ends within 1 accept step, 1
LVL and 255 PULL steps, with a response, phase IDLE, rem 0, and every byte appended before kept; and, whatever other agents do
between the steps, each answered PULL ends the command or takes one off rem. -/
def Obligations.PollCycleAlwaysEnds : Prop :=
  (∀ (s : State) (os : List BusOutcome), s.Inv → s.phase = .idle → os.length = 256 → (∀ o, o ∈ os → o ≠ .noAck) →
    ∃ t r more, pollCycle os s = .next t ∧ t.phase = .idle ∧ t.rsp = some r ∧ t.rem = 0 ∧ t.sentence = s.sentence ++ more) ∧
  (∀ s : State, s.Inv → s.phase = .drain → s.busOutcome ≠ .noAck →
    ∃ t, exec .pull s = .next t ∧
      (t.phase = .idle ∧ t.rsp.isSome = true ∧ t.rem = 0 ∨ t.phase = .drain ∧ t.rsp = none ∧ t.rem.toNat + 1 = s.rem.toNat))

/-- R241, R127: in every fair run from a state of the invariant, with any steps of the other agents between, a command in progress is
eventually answered, or a reset falls first (R217). -/
def Obligations.FairRunsAnswerEveryCommand : Prop :=
  ∀ r : Run, r.Fair → (r.state 0).Inv → ∀ n, (r.state n).phase ≠ .idle →
    ∃ m, n ≤ m ∧ (r.state m).phase ≠ .idle ∧ (r.state (m + 1)).phase = .idle ∧
      ((r.state (m + 1)).rsp.isSome = true ∨ (r.turn m).action = .wire .rst)

/-- R125: a terminator split across two poll cycles is detected: after a cycle that left T0 last, a first byte T1 answers SENT, with the
bytes kept and the rest left in the FIFO. -/
def Obligations.SplitTerminatorIsDetected : Prop :=
  ∀ (s : State) (rest : List Byte), s.Inv → s.phase = .idle → s.st = .acc → s.bridge.latchAccess = false →
    1 ≤ s.len → s.len < s.params.maxlen → s.byteAt (s.len - 1) = Config.t0 → s.bridge.fifo = Config.t1 :: rest →
    ∃ t, pollCycle allAcknowledged s = .next t ∧ t.st = .cmp ∧ t.rsp = some .sent ∧ t.sentence = s.sentence ++ [Config.t1] ∧
      t.bridge.fifo = rest

/-- R126: feeding a stream that ends in its only terminator one byte at a time, with room for it, from an empty ACC state reaches CMP at
its last byte with the whole stream as buffer, and is in ACC after every shorter feed. -/
def Obligations.FeedCompletesOnceAtTheTerminator : Prop :=
  ∀ (s : State) (l : List Byte), s.Inv → s.phase = .idle → s.st = .acc → s.len = 0 → s.bridge.fifo = [] →
    s.bridge.latchAccess = false → isSentence s.params.maxlen l →
    (∃ t, feed l s = .next t ∧ t.st = .cmp ∧ t.len = l.length ∧ t.sentence = l) ∧
    (∀ n, n < l.length → ∃ t, feed (l.take n) s = .next t ∧ t.st = .acc ∧ t.sentence = l.take n)

/-- R126 (its second half), R116, R186: feeding one byte more than MAXLEN without a terminator among the first MAXLEN bytes ends in OVF at
the byte with index MAXLEN, which stays in the FIFO; the buffer holds the bytes before it. -/
def Obligations.FeedOverflowsPastTheBound : Prop :=
  ∀ (s : State) (l : List Byte), s.Inv → s.phase = .idle → s.st = .acc → s.len = 0 → s.bridge.fifo = [] →
    s.bridge.latchAccess = false → l.length = s.params.maxlen + 1 → noTerminatorBefore (bytesAt l) s.params.maxlen →
    ∃ t, feed l s = .next t ∧ t.st = .ovf ∧ t.rsp = some .ovf ∧ t.sentence = l.take s.params.maxlen ∧
      t.bridge.fifo = l.drop s.params.maxlen

/-- R101, R41: ACQUIRE, with a producer that pushes one sentence in any chunks the FIFO can hold, none, one or several bytes before each
POLL, polls on through every NONE, takes at SENT and returns exactly that sentence; the LFE is then empty and ready. -/
def Obligations.AcquireReturnsTheSentence : Prop :=
  ∀ (s : State) (chunks : List (List Byte)), s.Inv → s.phase = .idle → s.st = .acc → s.len = 0 → s.bridge.fifo = [] →
    s.bridge.latchAccess = false → isSentence s.params.maxlen chunks.flatten → (∀ c, c ∈ chunks → c.length ≤ Config.fifoDepth) →
    ∃ t, acquire (chunkMoves chunks ++ [.lfe .ack]) s = .sentence chunks.flatten t ∧
      t.st = .acc ∧ t.len = 0 ∧ t.phase = .idle ∧ t.bridge.fifo = []

/-- R101, R186, R187: among any moves of the producer and the environment, ACQUIRE returns only sentences, reports FramingError only in OVF
with a full buffer and TransportError only in ACC, and each of the three endings comes: OVF where a byte waits for a full buffer, XERR
where a level read or a pop fails, also in an iteration after one that answered NONE. -/
def Obligations.AcquireEndsAsItsResponseSays : Prop :=
  (∀ (s : State) (moves : List Move), s.Inv →
    (∀ l t, acquire moves s = .sentence l t → isSentence s.params.maxlen l ∧ t.st = .acc ∧ t.len = 0 ∧ t.rsp = some .none) ∧
    (∀ t, acquire moves s = .framingError t → t.st = .ovf ∧ t.len = t.params.maxlen ∧ t.rsp = some .ovf) ∧
    (∀ t, acquire moves s = .transportError t → t.st = .acc ∧ t.rsp = some .xerr) ∧
    acquire moves s ≠ .stopped) ∧
  (∀ (s : State) (took : Bool) (o o' : BusOutcome) (more : List Move), s.Inv → s.phase = .idle → s.st = .acc →
    (s.len = s.params.maxlen → s.bridge.fifo ≠ [] →
      ∃ t, acquire (.lfe o :: .lfe .ack :: .lfe o' :: more) s = .framingError t) ∧
    (s.params.hasXerr = true → ∃ t, acquire (.lfe o :: .lfe (.err took) :: more) s = .transportError t) ∧
    (s.params.hasXerr = true → s.len ≠ s.params.maxlen → s.bridge.fifo ≠ [] →
      ∃ t, acquire (.lfe o :: .lfe .ack :: .lfe (.err took) :: more) s = .transportError t ∧ t.sentence = s.sentence) ∧
    (s.params.hasXerr = true → s.bridge.fifo = [] →
      ∃ t, acquire (.lfe o :: .lfe .ack :: .lfe o' :: .lfe (.err took) :: more) s = .transportError t ∧ t.sentence = s.sentence))
end

