-- ==== Sys2Proof/Laws/State.lean ====
section
/-! SUPPORT. For every named update of State, one lemma per field: what it writes and what it leaves. -/

namespace Sys2Proof.Machine

/-! ### quiet -/

@[simp] theorem quiet_st (s : State) : s.quiet.st = s.st := rfl
@[simp] theorem quiet_len (s : State) : s.quiet.len = s.len := rfl
@[simp] theorem quiet_buf (s : State) : s.quiet.buf = s.buf := rfl
@[simp] theorem quiet_rem (s : State) : s.quiet.rem = s.rem := rfl
@[simp] theorem quiet_phase (s : State) : s.quiet.phase = s.phase := rfl
@[simp] theorem quiet_bridge (s : State) : s.quiet.bridge = s.bridge := rfl
@[simp] theorem quiet_rsp (s : State) : s.quiet.rsp = none := rfl
@[simp] theorem quiet_emission (s : State) : s.quiet.emission = none := rfl
@[simp] theorem quiet_bus (s : State) : s.quiet.bus = none := rfl
@[simp] theorem quiet_params (s : State) : s.quiet.params = s.params := rfl
@[simp] theorem quiet_outcome (s : State) : s.quiet.outcome = s.outcome := rfl
@[simp] theorem quiet_schedule (s : State) : s.quiet.schedule = s.schedule := rfl
@[simp] theorem quiet_draws (s : State) : s.quiet.draws = s.draws := rfl

/-! ### offClock -/

@[simp] theorem offClock_st (s : State) : s.offClock.st = s.st := rfl
@[simp] theorem offClock_len (s : State) : s.offClock.len = s.len := rfl
@[simp] theorem offClock_buf (s : State) : s.offClock.buf = s.buf := rfl
@[simp] theorem offClock_rem (s : State) : s.offClock.rem = s.rem := rfl
@[simp] theorem offClock_phase (s : State) : s.offClock.phase = s.phase := rfl
@[simp] theorem offClock_bridge (s : State) : s.offClock.bridge = s.bridge := rfl
@[simp] theorem offClock_rsp (s : State) : s.offClock.rsp = s.rsp := rfl
@[simp] theorem offClock_emission (s : State) : s.offClock.emission = none := rfl
@[simp] theorem offClock_bus (s : State) : s.offClock.bus = none := rfl
@[simp] theorem offClock_params (s : State) : s.offClock.params = s.params := rfl
@[simp] theorem offClock_outcome (s : State) : s.offClock.outcome = s.outcome := rfl
@[simp] theorem offClock_schedule (s : State) : s.offClock.schedule = s.schedule := rfl
@[simp] theorem offClock_draws (s : State) : s.offClock.draws = s.draws := rfl

/-! ### meeting -/

@[simp] theorem meeting_st (o : BusOutcome) (s : State) : (s.meeting o).st = s.st := rfl
@[simp] theorem meeting_len (o : BusOutcome) (s : State) : (s.meeting o).len = s.len := rfl
@[simp] theorem meeting_buf (o : BusOutcome) (s : State) : (s.meeting o).buf = s.buf := rfl
@[simp] theorem meeting_rem (o : BusOutcome) (s : State) : (s.meeting o).rem = s.rem := rfl
@[simp] theorem meeting_phase (o : BusOutcome) (s : State) : (s.meeting o).phase = s.phase := rfl
@[simp] theorem meeting_bridge (o : BusOutcome) (s : State) : (s.meeting o).bridge = s.bridge := rfl
@[simp] theorem meeting_rsp (o : BusOutcome) (s : State) : (s.meeting o).rsp = s.rsp := rfl
@[simp] theorem meeting_emission (o : BusOutcome) (s : State) : (s.meeting o).emission = s.emission := rfl
@[simp] theorem meeting_bus (o : BusOutcome) (s : State) : (s.meeting o).bus = s.bus := rfl
@[simp] theorem meeting_params (o : BusOutcome) (s : State) : (s.meeting o).params = s.params := rfl
@[simp] theorem meeting_outcome (o : BusOutcome) (s : State) : (s.meeting o).outcome = o := rfl
@[simp] theorem meeting_schedule (o : BusOutcome) (s : State) : (s.meeting o).schedule = s.schedule := rfl
@[simp] theorem meeting_draws (o : BusOutcome) (s : State) : (s.meeting o).draws = s.draws := rfl

/-! ### respond -/

@[simp] theorem respond_st (r : Response) (s : State) : (s.respond r).st = s.st := rfl
@[simp] theorem respond_len (r : Response) (s : State) : (s.respond r).len = s.len := rfl
@[simp] theorem respond_buf (r : Response) (s : State) : (s.respond r).buf = s.buf := rfl
@[simp] theorem respond_rem (r : Response) (s : State) : (s.respond r).rem = s.rem := rfl
@[simp] theorem respond_phase (r : Response) (s : State) : (s.respond r).phase = s.phase := rfl
@[simp] theorem respond_bridge (r : Response) (s : State) : (s.respond r).bridge = s.bridge := rfl
@[simp] theorem respond_rsp (r : Response) (s : State) : (s.respond r).rsp = some r := rfl
@[simp] theorem respond_emission (r : Response) (s : State) : (s.respond r).emission = s.emission := rfl
@[simp] theorem respond_bus (r : Response) (s : State) : (s.respond r).bus = s.bus := rfl
@[simp] theorem respond_params (r : Response) (s : State) : (s.respond r).params = s.params := rfl
@[simp] theorem respond_outcome (r : Response) (s : State) : (s.respond r).outcome = s.outcome := rfl
@[simp] theorem respond_schedule (r : Response) (s : State) : (s.respond r).schedule = s.schedule := rfl
@[simp] theorem respond_draws (r : Response) (s : State) : (s.respond r).draws = s.draws := rfl

/-! ### endCommand -/

@[simp] theorem endCommand_st (r : Response) (s : State) : (s.endCommand r).st = s.st := rfl
@[simp] theorem endCommand_len (r : Response) (s : State) : (s.endCommand r).len = s.len := rfl
@[simp] theorem endCommand_buf (r : Response) (s : State) : (s.endCommand r).buf = s.buf := rfl
@[simp] theorem endCommand_rem (r : Response) (s : State) : (s.endCommand r).rem = 0 := rfl
@[simp] theorem endCommand_phase (r : Response) (s : State) : (s.endCommand r).phase = .idle := rfl
@[simp] theorem endCommand_bridge (r : Response) (s : State) : (s.endCommand r).bridge = s.bridge := rfl
@[simp] theorem endCommand_rsp (r : Response) (s : State) : (s.endCommand r).rsp = some r := rfl
@[simp] theorem endCommand_emission (r : Response) (s : State) : (s.endCommand r).emission = s.emission := rfl
@[simp] theorem endCommand_bus (r : Response) (s : State) : (s.endCommand r).bus = s.bus := rfl
@[simp] theorem endCommand_params (r : Response) (s : State) : (s.endCommand r).params = s.params := rfl
@[simp] theorem endCommand_outcome (r : Response) (s : State) : (s.endCommand r).outcome = s.outcome := rfl
@[simp] theorem endCommand_schedule (r : Response) (s : State) : (s.endCommand r).schedule = s.schedule := rfl
@[simp] theorem endCommand_draws (r : Response) (s : State) : (s.endCommand r).draws = s.draws := rfl

/-! ### raiseOverflow -/

@[simp] theorem raiseOverflow_st (s : State) : s.raiseOverflow.st = .ovf := rfl
@[simp] theorem raiseOverflow_len (s : State) : s.raiseOverflow.len = s.len := rfl
@[simp] theorem raiseOverflow_buf (s : State) : s.raiseOverflow.buf = s.buf := rfl
@[simp] theorem raiseOverflow_rem (s : State) : s.raiseOverflow.rem = 0 := rfl
@[simp] theorem raiseOverflow_phase (s : State) : s.raiseOverflow.phase = .idle := rfl
@[simp] theorem raiseOverflow_bridge (s : State) : s.raiseOverflow.bridge = s.bridge := rfl
@[simp] theorem raiseOverflow_rsp (s : State) : s.raiseOverflow.rsp = some .ovf := rfl
@[simp] theorem raiseOverflow_emission (s : State) : s.raiseOverflow.emission = s.emission := rfl
@[simp] theorem raiseOverflow_bus (s : State) : s.raiseOverflow.bus = s.bus := rfl
@[simp] theorem raiseOverflow_params (s : State) : s.raiseOverflow.params = s.params := rfl
@[simp] theorem raiseOverflow_outcome (s : State) : s.raiseOverflow.outcome = s.outcome := rfl
@[simp] theorem raiseOverflow_schedule (s : State) : s.raiseOverflow.schedule = s.schedule := rfl
@[simp] theorem raiseOverflow_draws (s : State) : s.raiseOverflow.draws = s.draws := rfl

/-! ### raiseTransportError -/

@[simp] theorem raiseTransportError_st (s : State) : s.raiseTransportError.st = s.st := rfl
@[simp] theorem raiseTransportError_len (s : State) : s.raiseTransportError.len = s.len := rfl
@[simp] theorem raiseTransportError_buf (s : State) : s.raiseTransportError.buf = s.buf := rfl
@[simp] theorem raiseTransportError_rem (s : State) : s.raiseTransportError.rem = 0 := rfl
@[simp] theorem raiseTransportError_phase (s : State) : s.raiseTransportError.phase = .idle := rfl
@[simp] theorem raiseTransportError_bridge (s : State) : s.raiseTransportError.bridge = s.bridge := rfl
@[simp] theorem raiseTransportError_rsp (s : State) : s.raiseTransportError.rsp = some .xerr := rfl
@[simp] theorem raiseTransportError_emission (s : State) : s.raiseTransportError.emission = s.emission := rfl
@[simp] theorem raiseTransportError_bus (s : State) : s.raiseTransportError.bus = s.bus := rfl
@[simp] theorem raiseTransportError_params (s : State) : s.raiseTransportError.params = s.params := rfl
@[simp] theorem raiseTransportError_outcome (s : State) : s.raiseTransportError.outcome = s.outcome := rfl
@[simp] theorem raiseTransportError_schedule (s : State) : s.raiseTransportError.schedule = s.schedule := rfl
@[simp] theorem raiseTransportError_draws (s : State) : s.raiseTransportError.draws = s.draws := rfl

/-! ### respondStatus -/

@[simp] theorem respondStatus_st (s : State) : s.respondStatus.st = s.st := rfl
@[simp] theorem respondStatus_len (s : State) : s.respondStatus.len = s.len := rfl
@[simp] theorem respondStatus_buf (s : State) : s.respondStatus.buf = s.buf := rfl
@[simp] theorem respondStatus_rem (s : State) : s.respondStatus.rem = s.rem := rfl
@[simp] theorem respondStatus_phase (s : State) : s.respondStatus.phase = s.phase := rfl
@[simp] theorem respondStatus_bridge (s : State) : s.respondStatus.bridge = s.bridge := rfl
@[simp] theorem respondStatus_rsp (s : State) : s.respondStatus.rsp = some s.st.response := rfl
@[simp] theorem respondStatus_emission (s : State) : s.respondStatus.emission = s.emission := rfl
@[simp] theorem respondStatus_bus (s : State) : s.respondStatus.bus = s.bus := rfl
@[simp] theorem respondStatus_params (s : State) : s.respondStatus.params = s.params := rfl
@[simp] theorem respondStatus_outcome (s : State) : s.respondStatus.outcome = s.outcome := rfl
@[simp] theorem respondStatus_schedule (s : State) : s.respondStatus.schedule = s.schedule := rfl
@[simp] theorem respondStatus_draws (s : State) : s.respondStatus.draws = s.draws := rfl

/-! ### withTurn -/

@[simp] theorem withTurn_st (s : State) (t : Turn) : (s.withTurn t).st = s.st := rfl
@[simp] theorem withTurn_len (s : State) (t : Turn) : (s.withTurn t).len = s.len := rfl
@[simp] theorem withTurn_buf (s : State) (t : Turn) : (s.withTurn t).buf = s.buf := rfl
@[simp] theorem withTurn_rem (s : State) (t : Turn) : (s.withTurn t).rem = s.rem := rfl
@[simp] theorem withTurn_phase (s : State) (t : Turn) : (s.withTurn t).phase = s.phase := rfl
@[simp] theorem withTurn_bridge (s : State) (t : Turn) : (s.withTurn t).bridge = s.bridge := rfl
@[simp] theorem withTurn_rsp (s : State) (t : Turn) : (s.withTurn t).rsp = s.rsp := rfl
@[simp] theorem withTurn_emission (s : State) (t : Turn) : (s.withTurn t).emission = s.emission := rfl
@[simp] theorem withTurn_bus (s : State) (t : Turn) : (s.withTurn t).bus = s.bus := rfl
@[simp] theorem withTurn_params (s : State) (t : Turn) : (s.withTurn t).params = s.params := rfl
@[simp] theorem withTurn_outcome (s : State) (t : Turn) : (s.withTurn t).outcome = s.outcome := rfl
@[simp] theorem withTurn_schedule (s : State) (t : Turn) : (s.withTurn t).schedule = t :: s.schedule := rfl
@[simp] theorem withTurn_draws (s : State) (t : Turn) : (s.withTurn t).draws = s.draws := rfl

/-! ### appendByte -/

@[simp] theorem appendByte_st (b : Byte) (s : State) : (appendByte b s).st = s.st := rfl
@[simp] theorem appendByte_len (b : Byte) (s : State) : (appendByte b s).len = s.len + 1 := rfl
@[simp] theorem appendByte_buf (b : Byte) (s : State) : (appendByte b s).buf = s.buf.write s.len b := rfl
@[simp] theorem appendByte_rem (b : Byte) (s : State) : (appendByte b s).rem = s.rem - 1 := rfl
@[simp] theorem appendByte_phase (b : Byte) (s : State) : (appendByte b s).phase = s.phase := rfl
@[simp] theorem appendByte_bridge (b : Byte) (s : State) : (appendByte b s).bridge = s.bridge := rfl
@[simp] theorem appendByte_rsp (b : Byte) (s : State) : (appendByte b s).rsp = s.rsp := rfl
@[simp] theorem appendByte_emission (b : Byte) (s : State) : (appendByte b s).emission = s.emission := rfl
@[simp] theorem appendByte_bus (b : Byte) (s : State) : (appendByte b s).bus = s.bus := rfl
@[simp] theorem appendByte_params (b : Byte) (s : State) : (appendByte b s).params = s.params := rfl
@[simp] theorem appendByte_outcome (b : Byte) (s : State) : (appendByte b s).outcome = s.outcome := rfl
@[simp] theorem appendByte_schedule (b : Byte) (s : State) : (appendByte b s).schedule = s.schedule := rfl
@[simp] theorem appendByte_draws (b : Byte) (s : State) : (appendByte b s).draws = s.draws := rfl

/-! ### resetWrites -/

@[simp] theorem resetWrites_st (s : State) : (resetWrites s).st = .acc := rfl
@[simp] theorem resetWrites_len (s : State) : (resetWrites s).len = 0 := rfl
@[simp] theorem resetWrites_buf (s : State) : (resetWrites s).buf = s.buf := rfl
@[simp] theorem resetWrites_rem (s : State) : (resetWrites s).rem = 0 := rfl
@[simp] theorem resetWrites_phase (s : State) : (resetWrites s).phase = .idle := rfl
@[simp] theorem resetWrites_bridge (s : State) : (resetWrites s).bridge = s.bridge := rfl
@[simp] theorem resetWrites_rsp (s : State) : (resetWrites s).rsp = none := rfl
@[simp] theorem resetWrites_emission (s : State) : (resetWrites s).emission = none := rfl
@[simp] theorem resetWrites_bus (s : State) : (resetWrites s).bus = none := rfl
@[simp] theorem resetWrites_params (s : State) : (resetWrites s).params = s.params := rfl
@[simp] theorem resetWrites_outcome (s : State) : (resetWrites s).outcome = s.outcome := rfl
@[simp] theorem resetWrites_schedule (s : State) : (resetWrites s).schedule = s.schedule := rfl
@[simp] theorem resetWrites_draws (s : State) : (resetWrites s).draws = s.draws := rfl

/-! ### takeTurn on a schedule whose first turn is known -/

@[simp] theorem nextTurn_withTurn (s : State) (t : Turn) : (s.withTurn t).nextTurn = t := rfl

@[simp] theorem takeTurn_withTurn (s : State) (t : Turn) :
    (s.withTurn t).takeTurn = { s with outcome := t.outcome } := rfl

/-- Taking a turn writes the model's own fields only. -/
theorem takeTurn_frame (s : State) :
    ∃ sch d, s.takeTurn = { s with outcome := s.nextTurn.outcome, schedule := sch, draws := d } := by
  unfold State.takeTurn State.nextTurn
  split
  · exact ⟨s.schedule, s.draws + 1, by simp⟩
  · exact ⟨_, s.draws, rfl⟩

end Sys2Proof.Machine
end

