-- ==== Sys2Proof/Laws/Memory.lean ====
section
/-! SUPPORT. The sentence buffer's laws: a read after a write, the canonical form, and what `byteAt`, `sentence` and the
terminator match say after an append. -/

namespace Sys2Proof.Machine

theorem Memory.read_write_same (m : Memory) (i : Nat) (b : Byte) : (m.write i b).read i = some b := by
  induction m with
  | nil => simp [Memory.write, Memory.read]
  | cons c m ih =>
    unfold Memory.write
    split
    · simp [Memory.read]
    · split
      · simp [Memory.read]
      · simp [Memory.read, ih]
        omega

theorem Memory.read_write_other (m : Memory) {i j : Nat} (b : Byte) (h : j ≠ i) :
    (m.write i b).read j = m.read j := by
  induction m with
  | nil => simp [Memory.write, Memory.read, Ne.symm h]
  | cons c m ih =>
    unfold Memory.write
    split
    · simp [Memory.read, Ne.symm h]
    · split
      · rename_i _ hic
        simp [Memory.read, ← hic, Ne.symm h]
      · simp [Memory.read, ih]

/-- A read after a write: the byte written at its index, the byte from before elsewhere. -/
theorem Memory.read_write (m : Memory) (i j : Nat) (b : Byte) :
    (m.write i b).read j = if j = i then some b else m.read j := by
  split
  · subst_vars; exact Memory.read_write_same m _ b
  · exact Memory.read_write_other m b ‹_›

theorem Memory.mem_write {m : Memory} {i : Nat} {b : Byte} {c : Host.Cell} (h : c ∈ m.write i b) :
    c = (i, b) ∨ c ∈ m := by
  induction m with
  | nil => simpa [Memory.write] using h
  | cons d m ih =>
    unfold Memory.write at h
    split at h
    · simpa using h
    · split at h
      · rcases List.mem_cons.1 h with h | h <;> simp [h]
      · rcases List.mem_cons.1 h with h | h
        · simp [h]
        · rcases ih h with h | h <;> simp [h]

/-- Every write keeps the canonical form. -/
theorem Memory.write_wf {m : Memory} (i : Nat) (b : Byte) (h : m.wf) : (m.write i b).wf := by
  induction m with
  | nil => simp [Memory.write, Memory.wf]
  | cons d m ih =>
    have hd : ∀ c ∈ m, d.1 < c.1 := fun c hc => (List.pairwise_cons.1 h).1 c hc
    have hm : Memory.wf m := (List.pairwise_cons.1 h).2
    unfold Memory.write
    split
    · rename_i hi
      refine List.pairwise_cons.2 ⟨fun c hc => ?_, h⟩
      rcases List.mem_cons.1 hc with rfl | hc
      · exact hi
      · exact hi.trans (hd c hc)
    · split
      · rename_i _ hi
        exact List.pairwise_cons.2 ⟨fun c hc => hi ▸ hd c hc, hm⟩
      · refine List.pairwise_cons.2 ⟨fun c hc => ?_, ih hm⟩
        rcases Memory.mem_write hc with rfl | hc
        · show d.1 < i
          omega
        · exact hd c hc

theorem reset_buf_wf : State.reset.buf.wf := by decide

/-- The byte read at an index depends on the buffer, and on the draw counter only where nothing is stored. -/
theorem byteAt_congr {s t : State} {i : Nat} (hb : t.buf.read i = s.buf.read i) (hf : (s.buf.read i).isSome = true) :
    t.byteAt i = s.byteAt i := by
  obtain ⟨b, hs⟩ := Option.isSome_iff_exists.1 hf
  simp [State.byteAt, hb, hs]

theorem byteAt_appendByte_same (b : Byte) (s : State) : (appendByte b s).byteAt s.len = b := by
  simp [State.byteAt, Memory.read_write_same]

theorem byteAt_appendByte_other (b : Byte) (s : State) {i : Nat} (h : i ≠ s.len) :
    (appendByte b s).byteAt i = s.byteAt i := by
  simp [State.byteAt, Memory.read_write_other _ _ h]

theorem sentence_length (s : State) : s.sentence.length = s.len := by simp [State.sentence]

theorem bytesAt_sentence (s : State) {i : Nat} (h : i < s.len) : bytesAt s.sentence i = s.byteAt i := by
  simp [bytesAt, State.sentence, List.getD, h]

/-- The sentence depends on the stored bytes below len only. -/
theorem sentence_congr {s t : State} (hl : t.len = s.len) (hb : ∀ i, i < s.len → t.byteAt i = s.byteAt i) :
    t.sentence = s.sentence := by
  unfold State.sentence
  rw [hl]
  exact List.map_congr_left fun i hi => hb i (List.mem_range.1 hi)

/-- An append adds one byte at the end of the sentence (R118, R53). -/
theorem sentence_appendByte (b : Byte) (s : State) : (appendByte b s).sentence = s.sentence ++ [b] := by
  unfold State.sentence
  rw [appendByte_len, List.range_succ, List.map_append, List.map_singleton, byteAt_appendByte_same]
  congr 1
  exact List.map_congr_left fun i hi => byteAt_appendByte_other b s (Nat.ne_of_lt (List.mem_range.1 hi))

/-- The match depends on the bytes below n only. -/
theorem terminatorMatch_congr {b c : Nat → Byte} {n : Nat} (h : ∀ i, i < n → b i = c i) :
    terminatorMatch b n = terminatorMatch c n := by
  unfold terminatorMatch
  by_cases hn : 2 ≤ n
  · rw [h (n - 2) (by omega), h (n - 1) (by omega)]
  · simp [hn]

theorem noTerminatorBefore_congr {b c : Nat → Byte} {n : Nat} (h : ∀ i, i < n → b i = c i)
    (hc : noTerminatorBefore c n) : noTerminatorBefore b n := by
  intro i h1 h2
  rw [h (i - 1) (by omega), h i h2]
  exact hc i h1 h2

/-- The match written out (R14). -/
theorem terminatorMatch_iff (b : Nat → Byte) (n : Nat) :
    terminatorMatch b n = true ↔ 2 ≤ n ∧ b (n - 2) = Config.t0 ∧ b (n - 1) = Config.t1 := by
  simp [terminatorMatch]

/-- No terminator within n + 1 bytes: none within n, and the last two do not match. -/
theorem noTerminatorBefore_succ (b : Nat → Byte) (n : Nat) (h : noTerminatorBefore b n)
    (hm : terminatorMatch b (n + 1) = false) : noTerminatorBefore b (n + 1) := by
  intro i h1 h2 hi
  by_cases hin : i < n
  · exact h i h1 hin hi
  · have : i = n := by omega
    subst this
    have : terminatorMatch b (i + 1) = true :=
      (terminatorMatch_iff b (i + 1)).2 ⟨by omega, by simpa using hi.1, by simpa using hi.2⟩
    simp [this] at hm

end Sys2Proof.Machine
end

