-- ==== Sys2Proof/Laws/Ops.lean ====
section
/-! SUPPORT. For each shared operation, one lemma that says everything it can do. -/

namespace Sys2Proof.Machine

/-- A pop takes the head, or draws when the FIFO is empty; it writes nothing else (R157). -/
theorem popFifo_frame (s : State) :
    ∃ f d, s.popFifo.2 = { s with bridge := { s.bridge with fifo := f }, draws := d } ∧
      (f = s.bridge.fifo ∨ f = s.bridge.fifo.tail) := by
  unfold State.popFifo
  split
  · rename_i h
    exact ⟨s.bridge.fifo, s.draws + 1, rfl, .inl rfl⟩
  · rename_i b rest h
    exact ⟨rest, s.draws, rfl, .inr (by simp [h])⟩

theorem popFifo_cons {s : State} {b : Byte} {rest : List Byte} (h : s.bridge.fifo = b :: rest) :
    s.popFifo = (b, { s with bridge := { s.bridge with fifo := rest } }) := by
  simp [State.popFifo, h]

theorem popFifo_nil {s : State} (h : s.bridge.fifo = []) :
    s.popFifo = (Config.freeByte s.draws, { s with draws := s.draws + 1 }) := by
  simp [State.popFifo, State.draw, h]

/-- A register read changes at most the FIFO (its head gone) and the draw counter (R57). -/
theorem readRegister_frame (reg : BridgeRegister) (s : State) :
    ∃ f d, (s.readRegister reg).2 = { s with bridge := { s.bridge with fifo := f }, draws := d } ∧
      (f = s.bridge.fifo ∨ f = s.bridge.fifo.tail) := by
  cases reg
  case holding => exact popFifo_frame s
  all_goals exact ⟨s.bridge.fifo, _, rfl, .inl rfl⟩

/-- The three ways a read transaction ends (R12, R42, R236). -/
theorem memRead_cases (reg : BridgeRegister) (off : Offset) (s : State) :
    (s.busOutcome = .ack ∧ s.memRead reg off =
      (.ok (s.readRegister reg).1,
        { (s.readRegister reg).2 with bus := some ⟨physicalByte true off, .data (s.readRegister reg).1⟩ })) ∨
    (∃ took, s.busOutcome = .err took ∧ s.memRead reg off =
      (.err, { (if took then (s.readRegister reg).2 else s) with bus := some ⟨physicalByte true off, .failed⟩ })) ∨
    (s.busOutcome = .noAck ∧ s.memRead reg off = (.waiting, s)) := by
  unfold State.memRead
  cases h : s.busOutcome with
  | ack => exact .inl ⟨rfl, rfl⟩
  | err took => exact .inr (.inl ⟨took, rfl, rfl⟩)
  | noAck => exact .inr (.inr ⟨rfl, rfl⟩)

/-- What any read transaction leaves of the state: the FIFO (or its tail), the draw counter and the bus output may differ. -/
theorem memRead_frame (reg : BridgeRegister) (off : Offset) (s : State) :
    ∃ f d x, (s.memRead reg off).2 = { s with bridge := { s.bridge with fifo := f }, draws := d, bus := x } ∧
      (f = s.bridge.fifo ∨ f = s.bridge.fifo.tail) ∧
      (x = s.bus ∨ ∃ r, x = some ⟨physicalByte true off, r⟩) := by
  obtain ⟨f, d, hr, hf⟩ := readRegister_frame reg s
  obtain ⟨-, h⟩ | ⟨took, -, h⟩ | ⟨-, h⟩ := memRead_cases reg off s
  · exact ⟨f, d, some ⟨physicalByte true off, .data (s.readRegister reg).1⟩, by rw [h, hr], hf, .inr ⟨_, rfl⟩⟩
  · cases took
    · exact ⟨s.bridge.fifo, s.draws, some ⟨physicalByte true off, .failed⟩, by rw [h]; rfl, .inl rfl, .inr ⟨_, rfl⟩⟩
    · exact ⟨f, d, some ⟨physicalByte true off, .failed⟩, by rw [h]; simp [hr], hf, .inr ⟨_, rfl⟩⟩
  · exact ⟨s.bridge.fifo, s.draws, s.bus, by rw [h], .inl rfl, .inl rfl⟩

/-- A level read changes nothing but the bus output (R57, R156). -/
theorem fifoLevel_frame (s : State) : ∃ x, s.fifoLevel.2 = { s with bus := x } := by
  obtain ⟨-, h⟩ | ⟨took, -, h⟩ | ⟨-, h⟩ := memRead_cases .receiveLevel 0x9 s
  · exact ⟨_, by rw [State.fifoLevel, h]; rfl⟩
  · exact ⟨_, by rw [State.fifoLevel, h]; cases took <;> rfl⟩
  · exact ⟨s.bus, by rw [State.fifoLevel, h]⟩

/-- A write transaction changes at most the bridge chip and the bus output (R159). -/
theorem memWrite_frame (reg : BridgeRegister) (off : Offset) (v : Byte) (s : State) :
    ∃ c x, s.memWrite reg off v = { s with bridge := c, bus := x } ∧
      (c = s.bridge ∨ c = s.bridge.writeRegister reg v) := by
  unfold State.memWrite
  split
  · exact ⟨_, _, rfl, .inr rfl⟩
  · rename_i took _
    cases took
    · exact ⟨s.bridge, _, rfl, .inl rfl⟩
    · exact ⟨s.bridge.writeRegister reg v, _, rfl, .inr rfl⟩
  · exact ⟨s.bridge, s.bus, rfl, .inl rfl⟩

/-- A write to the bridge chip leaves the receive FIFO, or empties it (R222 step 6). -/
theorem writeRegister_fifo (reg : BridgeRegister) (v : Byte) (c : Bridge) :
    (c.writeRegister reg v).fifo = c.fifo ∨ (c.writeRegister reg v).fifo = [] := by
  cases reg <;> simp [Bridge.writeRegister]
  cases fifoControlResets v <;> simp

/-- A PUSH leaves every register, and the FIFO keeps its bound (R161, R162). -/
theorem push_frame (c : Bridge) (b : Byte) : ∃ f, c.push b = { c with fifo := f } := by
  unfold Bridge.push
  split
  · exact ⟨_, rfl⟩
  · split
    · exact ⟨c.fifo, rfl⟩
    · exact ⟨_, rfl⟩

theorem push_length {c : Bridge} (b : Byte) (h : c.fifo.length ≤ Config.fifoDepth) :
    c.fifo.length ≤ (c.push b).fifo.length ∧ (c.push b).fifo.length ≤ Config.fifoDepth := by
  have hpos : 0 < Config.fifoDepth := Nat.succ_pos _
  unfold Bridge.push
  split
  · simp; omega
  · split
    · exact ⟨Nat.le_refl _, h⟩
    · simp; omega

/-- FIFO_DEPTH is between 1 and 255 (R7). -/
theorem fifoDepth_bounds : 1 ≤ Config.fifoDepth ∧ Config.fifoDepth ≤ 255 := by
  have := Config.fifoDepthLessOne.isLt
  unfold Config.fifoDepth
  omega

/-- The outcome of a transaction does not depend on the outputs, the counter or the LFE's registers. -/
theorem busOutcome_congr {s t : State} (ho : t.outcome = s.outcome) (hp : t.params = s.params) :
    t.busOutcome = s.busOutcome := by
  simp [State.busOutcome, ho, hp]

@[simp] theorem busOutcome_quiet (s : State) : s.quiet.busOutcome = s.busOutcome := busOutcome_congr rfl rfl

@[simp] theorem busOutcome_offClock (s : State) : s.offClock.busOutcome = s.busOutcome := busOutcome_congr rfl rfl

/-- An abandoned read may lose the FIFO's head and nothing else (R217). -/
theorem abandonRead_frame (s : State) :
    ∃ f d, s.abandonRead = { s with bridge := { s.bridge with fifo := f }, draws := d } ∧
      (f = s.bridge.fifo ∨ f = s.bridge.fifo.tail) := by
  unfold State.abandonRead
  split
  · exact readRegister_frame _ s
  · exact ⟨s.bridge.fifo, s.draws, rfl, .inl rfl⟩

/-- The FIFO reset bit clears itself (R30, R222 step 6). -/
theorem fifoControlResets_stored (v : Byte) : fifoControlResets (fifoControlStored v) = false := by
  have h := Config.fifoResetBit.isLt
  simp [fifoControlResets, fifoControlStored, h]

/-- IDXW bits reach every index below MAXLEN (R7). -/
theorem maxlen_le_two_pow_idxw (p : Params) (h : p.wf) : p.maxlen ≤ 2 ^ p.idxw := by
  have := Nat.lt_log2_self (n := p.maxlen - 1)
  have := h.1
  unfold Params.idxw
  omega

end Sys2Proof.Machine
end

