-- ==== Sys2Proof/Laws/Bus.lean ====
section
/-! SUPPORT. Closed forms of the two reads the engine issues (R156, R157), one per outcome, and of a read and a write of a
register under each outcome. -/

namespace Sys2Proof.Machine

theorem memRead_ack {s : State} (reg : BridgeRegister) (off : Offset) (h : s.busOutcome = .ack) :
    s.memRead reg off = (.ok (s.readRegister reg).1,
      { (s.readRegister reg).2 with bus := some ⟨physicalByte true off, .data (s.readRegister reg).1⟩ }) := by
  simp only [State.memRead, h]

theorem memRead_err {s : State} {took : Bool} (reg : BridgeRegister) (off : Offset) (h : s.busOutcome = .err took) :
    s.memRead reg off =
      (.err, { (if took then (s.readRegister reg).2 else s) with bus := some ⟨physicalByte true off, .failed⟩ }) := by
  simp only [State.memRead, h]

theorem memRead_noAck {s : State} (reg : BridgeRegister) (off : Offset) (h : s.busOutcome = .noAck) :
    s.memRead reg off = (.waiting, s) := by
  simp only [State.memRead, h]

theorem memWrite_ack {s : State} (reg : BridgeRegister) (off : Offset) (v : Byte) (h : s.busOutcome = .ack) :
    s.memWrite reg off v =
      { s with bridge := s.bridge.writeRegister reg v, bus := some ⟨physicalByte false off, .written⟩ } := by
  simp only [State.memWrite, h]

/-- RD_RXLVL, acknowledged: the occupancy, and nothing changed but the bus output. -/
theorem fifoLevel_ack {s : State} (h : s.busOutcome = .ack) :
    s.fifoLevel = (.ok (BitVec.ofNat 8 s.bridge.fifo.length),
      { s with bus := some ⟨0xC8, .data (BitVec.ofNat 8 s.bridge.fifo.length)⟩ }) := by
  rw [State.fifoLevel, memRead_ack _ _ h]; rfl

theorem fifoLevel_err {s : State} {took : Bool} (h : s.busOutcome = .err took) :
    s.fifoLevel = (.err, { s with bus := some ⟨0xC8, .failed⟩ }) := by
  rw [State.fifoLevel, memRead_err _ _ h]; cases took <;> rfl

theorem fifoLevel_noAck {s : State} (h : s.busOutcome = .noAck) : s.fifoLevel = (.waiting, s) :=
  memRead_noAck _ _ h

/-- RD_RHR, acknowledged, on a FIFO with a head, in the normal view. -/
theorem fifoPop_ack_cons {s : State} {b : Byte} {rest : List Byte} (h : s.busOutcome = .ack)
    (hv : s.bridge.latchAccess = false) (hf : s.bridge.fifo = b :: rest) :
    s.fifoPop = (.ok b, { s with bridge := { s.bridge with fifo := rest }, bus := some ⟨0x80, .data b⟩ }) := by
  have hr : s.readRegister s.bridge.registerAtZero = (b, { s with bridge := { s.bridge with fifo := rest } }) := by
    rw [show s.bridge.registerAtZero = .holding by simp [Bridge.registerAtZero, hv]]
    exact popFifo_cons hf
  rw [State.fifoPop, memRead_ack _ _ h, hr]; rfl

/-- RD_RHR, acknowledged, on an empty FIFO, in the normal view: a draw (D29). -/
theorem fifoPop_ack_nil {s : State} (h : s.busOutcome = .ack) (hv : s.bridge.latchAccess = false)
    (hf : s.bridge.fifo = []) :
    s.fifoPop = (.ok (Config.freeByte s.draws),
      { s with draws := s.draws + 1, bus := some ⟨0x80, .data (Config.freeByte s.draws)⟩ }) := by
  have hr : s.readRegister s.bridge.registerAtZero =
      (Config.freeByte s.draws, { s with draws := s.draws + 1 }) := by
    rw [show s.bridge.registerAtZero = .holding by simp [Bridge.registerAtZero, hv]]
    exact popFifo_nil hf
  rw [State.fifoPop, memRead_ack _ _ h, hr]; rfl

/-- Address byte 0x80, acknowledged, with line-control bit 7 set: divisor-latch-low, and nothing popped (R52). -/
theorem fifoPop_ack_latch {s : State} (h : s.busOutcome = .ack) (hv : s.bridge.latchAccess = true) :
    s.fifoPop = (.ok s.bridge.divisorLow, { s with bus := some ⟨0x80, .data s.bridge.divisorLow⟩ }) := by
  have hr : s.readRegister s.bridge.registerAtZero = (s.bridge.divisorLow, s) := by
    rw [show s.bridge.registerAtZero = .divisorLow by simp [Bridge.registerAtZero, hv]]
    rfl
  rw [State.fifoPop, memRead_ack _ _ h, hr]; rfl

/-- RD_RHR, failed: the FIFO's head may be gone (D16). -/
theorem fifoPop_err {s : State} {took : Bool} (h : s.busOutcome = .err took) :
    ∃ f d, s.fifoPop =
        (.err, { s with bridge := { s.bridge with fifo := f }, draws := d, bus := some ⟨0x80, .failed⟩ }) ∧
      (f = s.bridge.fifo ∨ f = s.bridge.fifo.tail) := by
  obtain ⟨f, d, hr, hf⟩ := readRegister_frame s.bridge.registerAtZero s
  cases took
  · exact ⟨s.bridge.fifo, s.draws, by rw [State.fifoPop, memRead_err _ _ h]; rfl, .inl rfl⟩
  · exact ⟨f, d, by rw [State.fifoPop, memRead_err _ _ h, if_pos rfl, hr]; rfl, hf⟩

theorem fifoPop_noAck {s : State} (h : s.busOutcome = .noAck) : s.fifoPop = (.waiting, s) :=
  memRead_noAck _ _ h

/-- A pop that returns a byte: the byte, and the FIFO either unchanged or without its head. -/
theorem fifoPop_ack {s : State} (h : s.busOutcome = .ack) :
    ∃ b f d, s.fifoPop =
        (.ok b, { s with bridge := { s.bridge with fifo := f }, draws := d, bus := some ⟨0x80, .data b⟩ }) ∧
      (f = s.bridge.fifo ∨ f = s.bridge.fifo.tail) := by
  obtain ⟨f, d, hr, hf⟩ := readRegister_frame s.bridge.registerAtZero s
  exact ⟨_, f, d, by rw [State.fifoPop, memRead_ack _ _ h, hr]; rfl, hf⟩

end Sys2Proof.Machine
end

