-- ==== Sys2Proof/Laws/Exec.lean ====
section
/-! SUPPORT. What each meaning can do, said once: for every instruction the list of the next states it can give. Proofs cite these
instead of unfolding `exec`. -/

namespace Sys2Proof.Machine

/-- The three ways `afterAppend` ends (R119, R120, R121). -/
theorem afterAppend_cases (a : State) :
    (a.terminated = true ∧ afterAppend a = { a with st := .cmp, rem := 0, phase := .idle, rsp := some .sent }) ∨
    (a.terminated = false ∧ a.rem = 0 ∧ afterAppend a = { a with rem := 0, phase := .idle, rsp := some .none }) ∨
    (a.terminated = false ∧ a.rem ≠ 0 ∧ afterAppend a = a) := by
  unfold afterAppend
  cases ht : a.terminated
  · by_cases hr : a.rem = 0
    · exact .inr (.inl ⟨rfl, hr, by rw [if_neg Bool.false_ne_true, if_pos hr]; rfl⟩)
    · exact .inr (.inr ⟨rfl, hr, by rw [if_neg Bool.false_ne_true, if_neg hr]⟩)
  · exact .inl ⟨rfl, rfl⟩

/-- LVL on a level n (R113, R114). -/
theorem lvlReply_ok (n : Byte) (t : State) :
    lvlReply (.ok n, t) = if n = 0 then t.endCommand .none else { t with rem := n, phase := .drain } := rfl

/-- Everything LVL can do (R113, R114, R236). -/
theorem execLvl_cases (s : State) :
    (s.phase ≠ .query ∧ execLvl s = .next s.quiet) ∨
    (s.phase = .query ∧ s.busOutcome = .noAck ∧ execLvl s = .next s.quiet) ∨
    (s.phase = .query ∧ (∃ took, s.busOutcome = .err took) ∧
      execLvl s = .next { s.quiet with rem := 0, phase := .idle, rsp := some .xerr, bus := some ⟨0xC8, .failed⟩ }) ∨
    (s.phase = .query ∧ s.busOutcome = .ack ∧ BitVec.ofNat 8 s.bridge.fifo.length = 0#8 ∧
      execLvl s = .next { s.quiet with rem := 0, phase := .idle, rsp := some .none, bus := some ⟨0xC8, .data 0⟩ }) ∨
    (s.phase = .query ∧ s.busOutcome = .ack ∧ BitVec.ofNat 8 s.bridge.fifo.length ≠ 0#8 ∧
      execLvl s = .next { s.quiet with
        rem := BitVec.ofNat 8 s.bridge.fifo.length, phase := .drain,
        bus := some ⟨0xC8, .data (BitVec.ofNat 8 s.bridge.fifo.length)⟩ }) := by
  by_cases hp : s.phase = .query
  · right
    rw [execLvl, if_pos hp]
    cases ho : s.busOutcome with
    | noAck => exact .inl ⟨hp, rfl, by rw [fifoLevel_noAck (by simpa using ho)]; rfl⟩
    | err took => exact .inr (.inl ⟨hp, ⟨took, rfl⟩, by rw [fifoLevel_err (took := took) (by simpa using ho)]; rfl⟩)
    | ack =>
      rw [fifoLevel_ack (by simpa using ho)]
      by_cases h0 : BitVec.ofNat 8 s.bridge.fifo.length = 0#8
      · exact .inr (.inr (.inl ⟨hp, rfl, h0, by
          rw [lvlReply_ok, if_pos (c := BitVec.ofNat 8 s.quiet.bridge.fifo.length = 0) h0, quiet_bridge, h0]; rfl⟩))
      · exact .inr (.inr (.inr ⟨hp, rfl, h0, by
          rw [lvlReply_ok, if_neg (c := BitVec.ofNat 8 s.quiet.bridge.fifo.length = 0) h0]; rfl⟩))
  · exact .inl ⟨hp, by rw [execLvl, if_neg hp]⟩

/-- The state on which PULL appends: the pop's effect on the bridge chip and the bus output (R157). -/
def popped (s : State) (b : Byte) (f : List Byte) (d : Nat) : State :=
  { s.quiet with bridge := { s.bridge with fifo := f }, draws := d, bus := some ⟨0x80, .data b⟩ }

/-- Everything PULL can do (R115 to R121, R236, log 27). -/
theorem execPull_cases (s : State) :
    (s.phase ≠ .drain ∧ execPull s = .next s.quiet) ∨
    (s.phase = .drain ∧ s.len = s.params.maxlen ∧
      execPull s = .next { s.quiet with st := .ovf, rem := 0, phase := .idle, rsp := some .ovf }) ∨
    (s.phase = .drain ∧ s.len ≠ s.params.maxlen ∧ s.busOutcome = .noAck ∧ execPull s = .next s.quiet) ∨
    (s.phase = .drain ∧ s.len ≠ s.params.maxlen ∧ ∃ took f d, s.busOutcome = .err took ∧
      (f = s.bridge.fifo ∨ f = s.bridge.fifo.tail) ∧
      execPull s = .next { s.quiet with
        bridge := { s.bridge with fifo := f }, draws := d, rem := 0, phase := .idle, rsp := some .xerr,
        bus := some ⟨0x80, .failed⟩ }) ∨
    (s.phase = .drain ∧ s.len ≠ s.params.maxlen ∧ ∃ b f d, s.busOutcome = .ack ∧
      s.quiet.fifoPop = (.ok b, popped s b f d) ∧ (f = s.bridge.fifo ∨ f = s.bridge.fifo.tail) ∧
      ((s.len < s.params.maxlen ∧ execPull s = .next (afterAppend (appendByte b (popped s b f d)))) ∨
       (s.params.maxlen < s.len ∧ execPull s = .fault .bufferIndex))) := by
  by_cases hp : s.phase = .drain
  · right
    rw [execPull, if_pos hp]
    by_cases hl : s.len = s.params.maxlen
    · exact .inl ⟨hp, hl, by rw [if_pos hl]; rfl⟩
    · right
      rw [if_neg hl]
      cases ho : s.busOutcome with
      | noAck => exact .inl ⟨hp, hl, rfl, by rw [fifoPop_noAck (by simpa using ho)]; rfl⟩
      | err took =>
        obtain ⟨f, d, h, hf⟩ := fifoPop_err (s := s.quiet) (took := took) (by simpa using ho)
        exact .inr (.inl ⟨hp, hl, took, f, d, rfl, hf, by rw [h]; rfl⟩)
      | ack =>
        obtain ⟨b, f, d, h, hf⟩ := fifoPop_ack (s := s.quiet) (by simpa using ho)
        refine .inr (.inr ⟨hp, hl, b, f, d, rfl, h, hf, ?_⟩)
        rw [h]
        by_cases hlt : s.len < s.params.maxlen
        · exact .inl ⟨hlt, by simp only [pullReply]; rw [if_pos (by simpa using hlt)]; rfl⟩
        · exact .inr ⟨by omega, by simp only [pullReply]; rw [if_neg (by simpa using hlt)]⟩
  · exact .inl ⟨hp, by rw [execPull, if_neg hp]⟩

/-- Everything a PUSH can do (R161, R162). -/
theorem execPush_cases (b : Byte) (s : State) :
    ∃ f, execPush b s = .next { s.offClock with bridge := { s.bridge with fifo := f } } ∧ (s.bridge.push b).fifo = f := by
  obtain ⟨f, h⟩ := push_frame s.bridge b
  exact ⟨f, by rw [execPush, h], by rw [h]⟩

/-- Everything a RESET can do (R216, R217). -/
theorem execReset_cases (s : State) :
    ∃ f d, execReset s = .next { s.quiet with
        st := .acc, len := 0, rem := 0, phase := .idle, bridge := { s.bridge with fifo := f }, draws := d } ∧
      (f = s.bridge.fifo ∨ f = s.bridge.fifo.tail) := by
  obtain ⟨f, d, h, hf⟩ := abandonRead_frame s
  exact ⟨f, d, by rw [execReset, h]; rfl, hf⟩

/-- Everything a bus transaction of software outside the block can do: the bridge chip, the draw counter and the bus output (R158, R159). -/
theorem execForeign_cases {i : Instr} (hi : i = .rdRxlvl ∨ i = .rdRhr ∨ (∃ r, i = .regrd r) ∨ ∃ r v, i = .regwr r v)
    (s : State) :
    (∃ r, exec i s = .refused (.noRegister r)) ∨
    (∃ c d x, exec i s = .next { s.offClock with bridge := c, draws := d, bus := x } ∧
      ((∃ f, c = { s.bridge with fifo := f } ∧ (f = s.bridge.fifo ∨ f = s.bridge.fifo.tail)) ∨
       (∃ r v reg, i = .regwr r v ∧ c = s.bridge.writeRegister reg v))) := by
  obtain rfl | rfl | ⟨r, rfl⟩ | ⟨r, v, rfl⟩ := hi
  · obtain ⟨f, d, x, h, hf, -⟩ := memRead_frame .receiveLevel 0x9 s.offClock
    exact .inr ⟨_, d, x, by rw [exec, execRdRxlvl, State.fifoLevel, h]; rfl, .inl ⟨f, rfl, hf⟩⟩
  · obtain ⟨f, d, x, h, hf, -⟩ := memRead_frame s.offClock.bridge.registerAtZero 0x0 s.offClock
    exact .inr ⟨_, d, x, by rw [exec, execRdRhr, State.fifoPop, h]; rfl, .inl ⟨f, rfl, hf⟩⟩
  · cases hr : s.bridge.registerAt r with
    | none => exact .inl ⟨r, by simp only [exec, execRegrd, hr]⟩
    | some reg =>
      obtain ⟨f, d, x, h, hf, -⟩ := memRead_frame reg r s.offClock
      exact .inr ⟨_, d, x, by simp only [exec, execRegrd, hr, h]; rfl, .inl ⟨f, rfl, hf⟩⟩
  · cases hr : s.bridge.registerAt r with
    | none => exact .inl ⟨r, by simp only [exec, execRegwr, hr]⟩
    | some reg =>
      obtain ⟨c, x, h, hc⟩ := memWrite_frame reg r v s.offClock
      refine .inr ⟨c, s.draws, x, by simp only [exec, execRegwr, hr, h]; rfl, ?_⟩
      obtain rfl | rfl := hc
      · exact .inl ⟨s.bridge.fifo, rfl, .inl rfl⟩
      · exact .inr ⟨r, v, reg, rfl, rfl⟩

/-- A step is exec of the decoded operation, an engine turn in IDLE, or a refusal of an encoded form (R15). -/
theorem step_cases (s : State) :
    (∃ i, step s = exec i s.takeTurn) ∨ step s = .next s.takeTurn.quiet ∨ ∃ e, step s = .refused (.undecodable e) := by
  unfold step
  split
  · unfold runWire
    split
    · exact .inl ⟨_, rfl⟩
    · exact .inr (.inr ⟨_, rfl⟩)
  · exact .inr (.inl rfl)

/-- A state that keeps everything the invariant speaks of, but the FIFO, and gives no other response and emits nothing, meets it too. -/
theorem State.Inv.of_same {s t : State} (h : s.Inv) (hst : t.st = s.st) (hlen : t.len = s.len) (hbuf : t.buf = s.buf)
    (hrem : t.rem = s.rem) (hph : t.phase = s.phase) (hpar : t.params = s.params)
    (hfifo : t.bridge.fifo.length ≤ Config.fifoDepth) (hrsp : t.rsp = none ∨ t.rsp = s.rsp) (hem : t.emission = none) : t.Inv := by
  have hb : ∀ i, i < s.len → t.byteAt i = s.byteAt i := fun i hi => byteAt_congr (by rw [hbuf]) (h.bufFilled i hi)
  have hnt : ∀ n, n ≤ s.len → noTerminatorBefore s.byteAt n → noTerminatorBefore t.byteAt n :=
    fun n hn hs => noTerminatorBefore_congr (fun i hi => hb i (by omega)) hs
  exact
    { params := hpar ▸ h.params
      lenBound := by rw [hlen, hpar]; exact h.lenBound
      bufCanonical := hbuf ▸ h.bufCanonical
      bufInside := by rw [hbuf, hpar]; exact h.bufInside
      bufFilled := by rw [hlen, hbuf]; exact h.bufFilled
      accNoTerminator := fun ha => hlen ▸ hnt _ (Nat.le_refl _) (h.accNoTerminator (hst ▸ ha))
      cmpTerminated := fun hc => by
        have := h.cmpTerminated (hst ▸ hc)
        refine ⟨?_, hlen ▸ hnt _ (by omega) this.2⟩
        rw [State.terminated, hlen, terminatorMatch_congr hb]
        exact this.1
      ovfFull := fun ho => by
        have := h.ovfFull (hst ▸ ho)
        exact ⟨by rw [hlen, hpar]; exact this.1, hlen ▸ hnt _ (Nat.le_refl _) this.2⟩
      busyAccumulates := by rw [hph, hst]; exact h.busyAccumulates
      remOutsideDrain := by rw [hph, hrem]; exact h.remOutsideDrain
      remInDrain := by rw [hph, hrem]; exact h.remInDrain
      fifoBound := hfifo
      responseIdle := fun hr => hph ▸ h.responseIdle (hrsp.elim (fun hn => absurd hn hr) fun he => he ▸ hr)
      responseCode := fun r hr =>
        hst ▸ h.responseCode r (hrsp.elim (fun hn => by simp [hn] at hr) fun he => he ▸ hr)
      emissionSentence := fun l hl => by simp [hem] at hl }

end Sys2Proof.Machine
end

