-- ==== Sys2Proof/Laws/PerInstr.lean ====
section
/-! SUPPORT. The family of statements "for all instructions": an instruction's encoding decodes to it (30_encoding.md R103). -/

namespace Sys2Proof.Laws.Encoding

/-- Of a well-formed instruction: the decoder reads it back from its encoded form. -/
def Statement : Instr → Prop := fun i => i.wellFormed = true → decode (encode i) = .ok i

/-- The fields of an address byte (R84, R86). -/
theorem physicalByte_fields : ∀ (read : Bool) (r : Offset),
    lowBitsZero (physicalByte read r) = true ∧ isRead (physicalByte read r) = read ∧ offsetOf (physicalByte read r) = r := by
  decide

theorem nop : Statement .nop := fun _ => rfl

theorem poll : Statement .poll := fun _ => rfl

theorem take : Statement .take := fun _ => rfl

theorem rsvd : Statement .rsvd := fun _ => rfl

theorem rdRxlvl : Statement .rdRxlvl := fun _ => rfl

theorem rdRhr : Statement .rdRhr := fun _ => rfl

/-- A read's address byte alone gives the read of its offset (R103). -/
theorem regrd (r : Offset) : Statement (.regrd r) := by
  intro h
  obtain ⟨h1, h2, h3⟩ := physicalByte_fields true r
  simp only [Instr.wellFormed, Bool.and_eq_true, bne_iff_ne] at h
  simp only [decode, encode, decodeBus, h1, h2, h3, decodeRead, if_neg h.1, if_neg h.2, if_true]

/-- A write's address byte and data byte give the write (R159). -/
theorem regwr (r : Offset) (v : Byte) : Statement (.regwr r v) := by
  intro _
  obtain ⟨h1, h2, h3⟩ := physicalByte_fields false r
  simp only [decode, encode, decodeBus, h1, h2, h3, if_true]

theorem lvl : Statement .lvl := fun _ => rfl

theorem pull : Statement .pull := fun _ => rfl

theorem push (b : Byte) : Statement (.push b) := fun _ => rfl

theorem reset : Statement .reset := fun _ => rfl

end Sys2Proof.Laws.Encoding
end

