-- ==== Sys2Proof/Laws/Poll.lean ====
section
/-! SUPPORT. One step of an engine run, of a poll cycle and of ACQUIRE (R110, R101), so that no proof unfolds a run of 256 steps. -/

namespace Sys2Proof.Machine

/-- A run ends where the command has ended. -/
theorem runEngine_idle (os : List BusOutcome) {s : State} (h : s.phase = .idle) : runEngine os s = .next s := by
  cases os with
  | nil => rfl
  | cons o os => simp only [runEngine, h]

theorem runEngine_query {o : BusOutcome} (os : List BusOutcome) {s s' : State} (h : s.phase = .query)
    (he : execLvl (s.meeting o) = .next s') : runEngine (o :: os) s = runEngine os s' := by
  simp only [runEngine, h, he]

theorem runEngine_drain {o : BusOutcome} (os : List BusOutcome) {s s' : State} (h : s.phase = .drain)
    (he : execPull (s.meeting o) = .next s') : runEngine (o :: os) s = runEngine os s' := by
  simp only [runEngine, h, he]

/-- POLL accepted in ACC (R112). -/
theorem execPoll_acc {s : State} (h : s.phase = .idle) (ha : s.st = .acc) :
    execPoll s = .next { s.quiet with phase := .query } := by
  simp [execPoll, State.accept, h, pollAccept, ha]

/-- A poll cycle from ACC is LVL's step and then the drain (R110). -/
theorem pollCycle_acc {o : BusOutcome} (os : List BusOutcome) {s s' : State} (h : s.phase = .idle) (ha : s.st = .acc)
    (he : execLvl (State.meeting o { s.quiet with phase := .query }) = .next s') :
    pollCycle (o :: os) s = runEngine os s' := by
  rw [pollCycle, execPoll_acc h ha]
  exact runEngine_query os rfl he

/-- The first read of a cycle with every read acknowledged is LVL's, and 255 are left for the drain (R127). -/
theorem allAcknowledged_eq : allAcknowledged = .ack :: List.replicate 255 .ack := rfl

/-- The LFE's move inside ACQUIRE is POLL's accept step, LVL or PULL, as `phase` says. -/
theorem pollingMove_idle {s : State} (h : s.phase = .idle) : pollingMove s = execPoll s := by simp only [pollingMove, h]

theorem pollingMove_query {s : State} (h : s.phase = .query) : pollingMove s = execLvl s := by simp only [pollingMove, h]

theorem pollingMove_drain {s : State} (h : s.phase = .drain) : pollingMove s = execPull s := by simp only [pollingMove, h]

/-- A move of the LFE that answers nothing, or NONE, goes on with ACQUIRE's loop (R101). -/
theorem acquire_loop {o : BusOutcome} (more : List Move) {s t : State} (he : pollingMove (s.meeting o) = .next t)
    (hr : t.rsp = none ∨ t.rsp = some .none) : acquire (.lfe o :: more) s = acquire more t := by
  rcases hr with hr | hr <;> simp only [acquire, he, hr]

/-- A PUSH goes on with ACQUIRE's loop. -/
theorem acquire_push {b : Byte} (more : List Move) {s t : State} (he : execPush b s = .next t) :
    acquire (.push b :: more) s = acquire more t := by
  simp only [acquire, he]

end Sys2Proof.Machine
end

