-- ==== Sys2Proof/Tests/Slice0.lean ====
section
/-! SUPPORT. Tests: expected results are those of 95_test_vectors.md (ids in the docstrings) or of the tables of 30_encoding.md;
and, for every statement with hypotheses, a witness that they can be met together. -/

namespace Sys2Proof.Tests

open Sys2Proof.Machine

/-! ### Helpers -/

/-- Buffer cells from index i on. -/
def cells : Nat → List Byte → Memory
  | _, [] => []
  | i, b :: l => (i, b) :: cells (i + 1) l

/-- A state with MAXLEN m, st, buf[0..len), rem, phase and fifo as given; everything else as after reset. -/
def lfe (m : Nat) (st : Framing) (buf : List Byte) (rem : BitVec 8) (phase : Phase) (fifo : List Byte) : State :=
  { State.reset with
    st := st, len := buf.length, buf := cells 0 buf, rem := rem, phase := phase,
    bridge := { Bridge.initial with fifo := fifo }, params := { Params.default with maxlen := m } }

/-- The same state with another environment's choice for the bus. -/
def onBus (o : BusOutcome) (s : State) : State := { s with outcome := o }

/-- The same state with another line-control register. -/
def withLineControl (v : Byte) (s : State) : State := { s with bridge := { s.bridge with lineControl := v } }

/-- st, buf[0..len), rem, phase, response, fifo. -/
structure Seen where
  st : Framing
  sentence : List Byte
  rem : BitVec 8
  phase : Phase
  rsp : Option Response
  fifo : List Byte
  deriving DecidableEq, Repr

/-- What is seen of a next state. -/
def seen (o : Host.Outcome State Fault Refusal) : Option Seen :=
  match o with
  | .next t => some ⟨t.st, t.sentence, t.rem, t.phase, t.rsp, t.bridge.fifo⟩
  | _ => none

/-- The Sentence a step emitted. -/
def emitted (o : Host.Outcome State Fault Refusal) : Option (List Byte) :=
  match o with
  | .next t => t.emission
  | _ => none

/-- The bus transaction of a next state. -/
def onWire (o : Host.Outcome State Fault Refusal) : Option (Option BusTxn) :=
  match o with
  | .next t => some t.bus
  | _ => none

/-! ### WellFormed -/

/-- R103: REGRD at 0x00 and 0x09 is written RD_RHR and RD_RXLVL; every other term is well formed. -/
theorem test_wellFormed_refuses_the_two_fixed_rows :
    (Instr.regrd 0x0).wellFormed = false ∧ (Instr.regrd 0x9).wellFormed = false ∧
    (Instr.regrd 0x1).wellFormed = true ∧ (Instr.regrd 0xF).wellFormed = true ∧
    Instr.rdRhr.wellFormed = true ∧ (Instr.regwr 0x9 0xFF).wellFormed = true := by decide

/-! ### Decode -/

/-- R81. -/
theorem test_decode_host_commands :
    decode (.cmd 0b00) = .ok .nop ∧ decode (.cmd 0b01) = .ok .poll ∧ decode (.cmd 0b10) = .ok .take ∧
    decode (.cmd 0b11) = .ok .rsvd := by decide

/-- R85, R86 and the table of S4. -/
theorem test_decode_bus_transactions :
    decode (.bus [0xC8]) = .ok .rdRxlvl ∧ decode (.bus [0x80]) = .ok .rdRhr ∧ decode (.bus [0x88]) = .ok (.regrd 0x1) ∧
    decode (.bus [0xF8]) = .ok (.regrd 0xF) ∧ decode (.bus [0x00, 0x41]) = .ok (.regwr 0x0 0x41) ∧
    decode (.bus [0x48, 0x01]) = .ok (.regwr 0x9 0x01) ∧ decode (.bus [0x78, 0xFF]) = .ok (.regwr 0xF 0xFF) := by decide

/-- R103: the rows without an encoding, and the producer's byte. -/
theorem test_decode_events :
    decode (.line 0x0D) = .ok (.push 0x0D) ∧ decode .rst = .ok .reset ∧ decode (.micro .query) = .ok .lvl ∧
    decode (.micro .drain) = .ok .pull := by decide

/-- R92: forms that select nothing. -/
theorem test_decode_refuses_by_name :
    decode (.bus []) = .error .noAddressByte ∧ decode (.bus [0xC9]) = .error (.reservedLowBits 0xC9) ∧
    decode (.bus [0x18]) = .error (.missingPayload 0x18) ∧ decode (.bus [0x80, 0x41]) = .error (.trailingBytes 0x80) ∧
    decode (.micro .idle) = .error .noMicroStep := by decide

/-- S4: all sixteen offsets. -/
theorem test_address_bytes_of_the_table :
    (List.range 16).map (fun n => physicalByte false (BitVec.ofNat 4 n)) =
      [0x00, 0x08, 0x10, 0x18, 0x20, 0x28, 0x30, 0x38, 0x40, 0x48, 0x50, 0x58, 0x60, 0x68, 0x70, 0x78] ∧
    (List.range 16).map (fun n => physicalByte true (BitVec.ofNat 4 n)) =
      [0x80, 0x88, 0x90, 0x98, 0xA0, 0xA8, 0xB0, 0xB8, 0xC0, 0xC8, 0xD0, 0xD8, 0xE0, 0xE8, 0xF0, 0xF8] := by decide

/-- opcode_table.json, rows of formats H and A (log 24). -/
theorem test_decodeTableWord :
    decodeTableWord 8 0x1 = some .poll ∧ decodeTableWord 8 0x3 = some .rsvd ∧ decodeTableWord 8 0xC8 = some .rdRxlvl ∧
    decodeTableWord 8 0x80 = some .rdRhr ∧ decodeTableWord 8 0x98 = some (.regrd 0x3) ∧
    decodeTableWord 8 0x18 = some (.regwr 0x3 0x00) ∧ decodeTableWord 0 0 = none := by decide

/-! ### Functions -/

/-- R7: LENW is 9 and IDXW 8 when MAXLEN is 256. -/
theorem test_widths_of_the_default : Params.default.lenw = 9 ∧ Params.default.idxw = 8 := by decide

/-- M-1, M-2, M-4 to M-7, M-10, M-11: whether the last two bytes of the sequence match. -/
theorem test_terminator_vectors :
    ([[0x0D, 0x0A], [0x0A], [0x0A, 0x0D], [0x0A, 0x0D, 0x0A], [0x0D, 0x0D, 0x0A], [0x0D, 0x41, 0x0A],
      [0x0D, 0x00, 0x0A], [0x8D, 0x0A]] : List (List Byte)).map (fun l => terminatorMatch (bytesAt l) l.length) =
      [true, false, false, true, true, false, false, false] := by decide

/-- W-10 and W-4 as the big step of R123. -/
theorem test_big_step_vectors :
    bigPoll 4 [] [0x41, 0x42, 0x43, 0x44, 0x45] = (.ovf, [0x41, 0x42, 0x43, 0x44], [0x45], .ovf) ∧
    bigPoll 256 [] [0x41, 0x0D, 0x0A, 0x42, 0x43] = (.cmp, [0x41, 0x0D, 0x0A], [0x42, 0x43], .sent) := by decide

/-- R50, R23: a cell read after a write, and the rising order kept. -/
theorem test_buffer_write :
    (cells 0 [0x41, 0x42]).write 1 0x43 = [(0, 0x41), (1, 0x43)] ∧ Memory.write [(2, 0x41)] 0 0x42 = [(0, 0x42), (2, 0x41)] ∧
    Memory.read [(0, 0x42), (2, 0x41)] 1 = none := by decide

/-! ### One step of each instruction -/

/-- L-2 with the engine's own choice of step: phase QUERY selects LVL. -/
theorem test_lvl_counts :
    seen (step ((lfe 256 .acc [] 0 .query [0x41]).withTurn ⟨.engine, .ack⟩)) =
      some ⟨.acc, [], 1, .drain, none, [0x41]⟩ := by decide

/-- L-5: the failed level read answers XERR and changes nothing else. -/
theorem test_lvl_error :
    seen (exec .lvl (onBus (.err false) (lfe 256 .acc [0x41] 0 .query [0x42]))) =
      some ⟨.acc, [0x41], 0, .idle, some .xerr, [0x42]⟩ := by decide

/-- U-6: [0D 0D] and 0A match. -/
theorem test_pull_match :
    seen (exec .pull (lfe 256 .acc [0x0D, 0x0D] 3 .drain [0x0A, 0x42, 0x43])) =
      some ⟨.cmp, [0x0D, 0x0D, 0x0A], 0, .idle, some .sent, [0x42, 0x43]⟩ := by decide

/-- U-11: the full buffer overflows even though the waiting byte would complete a terminator. -/
theorem test_pull_overflow :
    seen (exec .pull (lfe 4 .acc [0x41, 0x42, 0x43, 0x0D] 1 .drain [0x0A])) =
      some ⟨.ovf, [0x41, 0x42, 0x43, 0x0D], 0, .idle, some .ovf, [0x0A]⟩ := by decide

/-- R112: POLL in ACC moves to QUERY, through a fetched table word. -/
theorem test_poll_accept :
    seen (step (State.reset.withFetchWord 8 0x1)) = some ⟨.acc, [], 0, .query, none, []⟩ := by decide

/-- W-14: POLL in OVF. -/
theorem test_poll_in_overflow :
    seen (exec .poll (lfe 4 .ovf [0x41, 0x42, 0x43, 0x44] 0 .idle [0x45])) =
      some ⟨.ovf, [0x41, 0x42, 0x43, 0x44], 0, .idle, some .ovf, [0x45]⟩ := by decide

/-- T-1: TAKE in CMP. -/
theorem test_take_emits :
    seen (exec .take (lfe 256 .cmp [0x24, 0x47, 0x0D, 0x0A] 0 .idle [0x24])) =
      some ⟨.acc, [], 0, .idle, some .none, [0x24]⟩ ∧
    emitted (exec .take (lfe 256 .cmp [0x24, 0x47, 0x0D, 0x0A] 0 .idle [0x24])) = some [0x24, 0x47, 0x0D, 0x0A] := by decide

/-- T-4: TAKE in ACC keeps the partial buffer. -/
theorem test_take_in_acc :
    seen (exec .take (lfe 256 .acc [0x41, 0x0D] 0 .idle [0x0A])) =
      some ⟨.acc, [0x41, 0x0D], 0, .idle, some .none, [0x0A]⟩ := by decide

/-- T-6. -/
theorem test_nop :
    seen (exec .nop (lfe 256 .acc [0x41, 0x42, 0x0D] 0 .idle [0x0A])) =
      some ⟨.acc, [0x41, 0x42, 0x0D], 0, .idle, some .none, [0x0A]⟩ := by decide

/-- T-9. -/
theorem test_rsvd :
    seen (exec .rsvd (lfe 256 .cmp [0x41, 0x0D, 0x0A] 0 .idle [])) =
      some ⟨.cmp, [0x41, 0x0D, 0x0A], 0, .idle, some .sent, []⟩ := by decide

/-- F-2. -/
theorem test_rdRxlvl :
    onWire (exec .rdRxlvl (lfe 256 .acc [] 0 .idle [0x24, 0x47, 0x0D, 0x0A])) = some (some ⟨0xC8, .data 0x04⟩) := by decide

/-- F-3. -/
theorem test_rdRhr :
    onWire (exec .rdRhr (lfe 256 .acc [] 0 .idle [0x24, 0x47])) = some (some ⟨0x80, .data 0x24⟩) ∧
    seen (exec .rdRhr (lfe 256 .acc [] 0 .idle [0x24, 0x47])) = some ⟨.acc, [], 0, .idle, none, [0x47]⟩ := by decide

/-- F-8: a failed pop that took the head, and one that did not. -/
theorem test_rdRhr_error :
    seen (exec .rdRhr (onBus (.err true) (lfe 256 .acc [] 0 .idle [0x41]))) = some ⟨.acc, [], 0, .idle, none, []⟩ ∧
    seen (exec .rdRhr (onBus (.err false) (lfe 256 .acc [] 0 .idle [0x41]))) = some ⟨.acc, [], 0, .idle, none, [0x41]⟩ := by
  decide

/-- R165: offset 0x00 with line-control bit 7 set is divisor-latch-low and pops nothing. -/
theorem test_regrd_divisor_view :
    onWire (exec (.regrd 0x0) (withLineControl 0x80 (lfe 256 .acc [] 0 .idle [0x41]))) = some (some ⟨0x80, .data 0x00⟩) ∧
    seen (exec (.regrd 0x0) (withLineControl 0x80 (lfe 256 .acc [] 0 .idle [0x41]))) =
      some ⟨.acc, [], 0, .idle, none, [0x41]⟩ := by decide

/-- U13, R92: no register at 0x0A. -/
theorem test_regrd_no_register : exec (.regrd 0xA) State.reset = .refused (.noRegister 0xA) := rfl

/-- R222 step 1: a write to line-control with bit 7 set turns the view. -/
theorem test_regwr_line_control :
    onWire (exec (.regwr 0x3 0x80) State.reset) = some (some ⟨0x18, .written⟩) ∧
    (match exec (.regwr 0x3 0x80) State.reset with
      | .next t => t.bridge.registerAtZero
      | _ => .holding) = .divisorLow := by decide

/-- R59, R158: offset 0x01 may be read in the normal view, where R30's map names no register: the byte is nobody's choice. -/
theorem test_regrd_unlisted_offset :
    onWire (exec (.regrd 0x1) State.reset) = some (some ⟨0x88, .data (Config.freeByte 0)⟩) := rfl

/-- R30, R222 step 6: the FIFO reset empties the FIFO, and the bit clears itself, so a second write without it leaves the FIFO. -/
theorem test_regwr_fifo_reset (b : Byte) (v : Byte) (h : fifoControlResets v = true) :
    (exec (.regwr 0x2 v) (lfe 4 .acc [] 0 .idle [b])) = .next { lfe 4 .acc [] 0 .idle [] with
      bridge := { Bridge.initial with fifoControl := fifoControlStored v }, bus := some ⟨0x10, .written⟩ } := by
  have hw : (lfe 4 .acc [] 0 .idle [b]).bridge.writeRegister .fifoControl v =
      { Bridge.initial with fifoControl := fifoControlStored v } := by simp [Bridge.writeRegister, h, lfe, Bridge.initial]
  have hr : (lfe 4 .acc [] 0 .idle [b]).bridge.registerAt 0x2 = some .fifoControl := by
    simp [lfe, Bridge.registerAt, Bridge.latchAccess, Bridge.initial]
  have ha : (lfe 4 .acc [] 0 .idle [b]).offClock.busOutcome = .ack := rfl
  simp only [exec, execRegwr, hr, memWrite_ack _ _ _ ha, offClock_bridge, hw]
  rfl

/-- R40: a byte that arrives while the LFE shows a response does not end the pulse; the LFE's own next step does. -/
theorem test_push_keeps_the_response :
    let s := { lfe 4 .acc [] 0 .idle [] with rsp := some .none }
    (∃ t, exec (.push 0x41) s = .next t ∧ rspValid t = true) ∧
    (∃ t, step (s.withTurn ⟨.engine, .ack⟩) = .next t ∧ rspValid t = false) := ⟨⟨_, rfl, rfl⟩, _, rfl, rfl⟩

/-- R162 is not decided by the model, R161 is: a byte enters an empty FIFO (FIFO_DEPTH is at least 1). -/
theorem test_push_appends :
    seen (exec (.push 0x0D) (lfe 256 .acc [0x41] 0 .idle [])) = some ⟨.acc, [0x41], 0, .idle, none, [0x0D]⟩ := by
  have h : (lfe 256 .acc [0x41] 0 .idle []).bridge.push 0x0D = { Bridge.initial with fifo := [0x0D] } :=
    if_pos (Nat.succ_pos _)
  rw [exec, execPush, h]
  rfl

/-- Z-1. -/
theorem test_reset_in_overflow :
    seen (exec .reset (lfe 4 .ovf [0x41, 0x42, 0x43, 0x44] 0 .idle [0x45, 0x0D, 0x0A])) =
      some ⟨.acc, [], 0, .idle, none, [0x45, 0x0D, 0x0A]⟩ := by decide

/-- Z-4: a pop was outstanding; here it had its side effect. -/
theorem test_reset_in_drain :
    seen (exec .reset (lfe 256 .acc [0x41] 2 .drain [0x42, 0x43])) = some ⟨.acc, [], 0, .idle, none, [0x43]⟩ := by decide

/-! ### Witnesses: states that meet the hypotheses of the statements -/

/-- A complete sentence, one byte waiting. -/
def sCmp : State := lfe 4 .cmp [0x41, 0x0D, 0x0A] 0 .idle [0x42]

/-- A full buffer in overflow. -/
def sOvf : State := lfe 4 .ovf [0x41, 0x42, 0x43, 0x44] 0 .idle [0x45]

/-- In QUERY with one byte waiting. -/
def sQuery : State := lfe 4 .acc [0x41] 0 .query [0x42]

/-- In DRAIN with one byte to pull. -/
def sDrain : State := lfe 4 .acc [0x41] 1 .drain [0x42]

/-- In DRAIN, one cell left, and the byte that waits completes the terminator. -/
def sMatch : State := lfe 4 .acc [0x41, 0x42, 0x0D] 1 .drain [0x0A]

/-- In DRAIN with the buffer full. -/
def sFull : State := lfe 4 .acc [0x41, 0x42, 0x43, 0x0D] 1 .drain [0x0A]

/-- Idle, T0 last in the buffer, T1 waiting. -/
def sSplit : State := lfe 4 .acc [0x41, 0x42, 0x0D] 0 .idle [0x0A]

/-- The receive FIFO is full: FIFO_DEPTH bytes. -/
def sFifoFull : State := lfe 4 .acc [] 0 .idle (List.replicate Config.fifoDepth 0x41)

/-- What `decide` can check of the invariant on a sample. -/
abbrev Checked (s : State) : Prop :=
  s.params.wf ∧ s.len ≤ s.params.maxlen ∧ s.buf.wf ∧ (∀ c ∈ s.buf, c.1 < s.params.maxlen) ∧
  (∀ i, i < s.len → (s.buf.read i).isSome = true) ∧
  (∀ i, i < (if s.st = .cmp then s.len - 1 else s.len) → 1 ≤ i → ¬(s.byteAt (i - 1) = Config.t0 ∧ s.byteAt i = Config.t1)) ∧
  (s.st = .cmp → s.terminated = true) ∧ (s.st = .ovf → s.len = s.params.maxlen) ∧ (s.phase ≠ .idle → s.st = .acc) ∧
  (s.phase ≠ .drain → s.rem = 0) ∧ (s.phase = .drain → s.rem ≠ 0) ∧ s.bridge.fifo.length ≤ 1 ∧ s.rsp = none ∧ s.emission = none

theorem inv_of_checked {s : State} (h : Checked s) : s.Inv := by
  obtain ⟨h1, h2, h3, h4, h5, h6, h7, h8, h9, h10, h11, h12, h13, h14⟩ := h
  exact
    { params := h1, lenBound := h2, bufCanonical := h3, bufInside := h4, bufFilled := h5
      accNoTerminator := fun ha i hi hl => h6 i (by rw [ha]; simpa using hl) hi
      cmpTerminated := fun hc => ⟨h7 hc, fun i hi hl => h6 i (by rw [hc]; simpa using hl) hi⟩
      ovfFull := fun ho => ⟨h8 ho, fun i hi hl => h6 i (by rw [ho]; simpa using hl) hi⟩
      busyAccumulates := h9, remOutsideDrain := h10, remInDrain := h11
      fifoBound := Nat.le_trans h12 (fifoDepth_bounds).1
      responseIdle := fun h => absurd h13 h
      responseCode := fun r hr => by simp [h13] at hr
      emissionSentence := fun l hl => by simp [h14] at hl }

/-- Every sample but the full FIFO meets the invariant, in every phase and framing state. -/
theorem test_samples_inv :
    State.reset.Inv ∧ sCmp.Inv ∧ sOvf.Inv ∧ sQuery.Inv ∧ sDrain.Inv ∧ sMatch.Inv ∧ sFull.Inv ∧ sSplit.Inv :=
  ⟨inv_of_checked (by decide), inv_of_checked (by decide), inv_of_checked (by decide), inv_of_checked (by decide),
    inv_of_checked (by decide), inv_of_checked (by decide), inv_of_checked (by decide), inv_of_checked (by decide)⟩

/-- ReservedAddressByteIsRefused: the smallest and the largest reserved low bits. -/
theorem test_witness_reserved : (0x01 : Byte) &&& 0x07 ≠ 0 ∧ (0xFF : Byte) &&& 0x07 ≠ 0 := by decide

/-- StepRunsTheDecodedInstruction, EmptyScheduleTakesAFreeTurn. -/
theorem test_witness_step :
    decode (.cmd 0b01) = .ok .poll ∧ sQuery.phase = .query ∧ sDrain.phase = .drain ∧ State.reset.phase = .idle ∧
    State.reset.schedule = [] := ⟨rfl, rfl, rfl, rfl, rfl⟩

/-- PollIsAcceptedFromIdle, TakeEmitsTheSentence, TakeOutsideCompleteChangesNothing, NopAnswersTheStatus, RsvdBehavesAsNop. -/
theorem test_witness_commands :
    (State.reset.phase = .idle ∧ State.reset.st = .acc) ∧ (sCmp.phase = .idle ∧ sCmp.st = .cmp ∧ sCmp.Inv) ∧
    (sOvf.phase = .idle ∧ sOvf.st = .ovf) :=
  ⟨⟨rfl, rfl⟩, ⟨rfl, rfl, test_samples_inv.2.1⟩, ⟨rfl, rfl⟩⟩

/-- CommandWhileBusyHasNoEffect: both busy phases. -/
theorem test_witness_busy : sQuery.phase ≠ .idle ∧ sDrain.phase ≠ .idle := by decide

/-- HostCommandsFrame, ParametersNeverChange, OnlyPullWritesTheBuffer: each command gives a next state. -/
theorem test_witness_commands_next :
    (∃ t, exec .nop sCmp = .next t) ∧ (∃ t, exec .poll State.reset = .next t) ∧ (∃ t, exec .take sCmp = .next t) ∧
    (∃ t, exec .rsvd sOvf = .next t) := ⟨⟨_, rfl⟩, ⟨_, rfl⟩, ⟨_, rfl⟩, ⟨_, rfl⟩⟩

/-- LvlQueriesTheLevel, TransportErrorEndsTheCycle, UnansweredReadHoldsTheEngine: every reply, with an empty and a nonempty FIFO. -/
theorem test_witness_lvl :
    sQuery.phase = .query ∧ sQuery.bridge.fifo.length ≤ Config.fifoDepth ∧ sQuery.busOutcome = .ack ∧ sQuery.bridge.fifo ≠ [] ∧
    (onBus (.err true) sQuery).busOutcome = .err true ∧ (onBus .noAck sQuery).busOutcome = .noAck ∧
    (lfe 4 .acc [] 0 .query []).bridge.fifo = [] :=
  ⟨rfl, fifoDepth_bounds.1, rfl, by decide, rfl, rfl, rfl⟩

/-- LevelZeroNeverPops, with a buffer that is full (W-11) and one that is empty. -/
theorem test_witness_level_zero :
    (let s := lfe 4 .acc [0x41, 0x42, 0x43, 0x0D] 0 .idle []
     s.phase = .idle ∧ s.st = .acc ∧ s.rem = 0 ∧ s.bridge.fifo = []) ∧
    State.reset.phase = .idle ∧ State.reset.st = .acc ∧ State.reset.rem = 0 ∧ State.reset.bridge.fifo = [] := by decide

/-- PullRaisesOverflowWhenFull, TransportErrorEndsTheCycle at a pop, UnansweredReadHoldsTheEngine at a pop and
at the first and the last offset that a REGRD may name. -/
theorem test_witness_pull_stops :
    (sFull.phase = .drain ∧ sFull.len = sFull.params.maxlen) ∧
    (sMatch.phase = .drain ∧ sMatch.len ≠ sMatch.params.maxlen) ∧
    (onBus (.err false) sMatch).busOutcome = .err false ∧ (onBus .noAck sMatch).busOutcome = .noAck ∧
    ((onBus .noAck sMatch).bridge.registerAt 0x0).isSome = true ∧ ((onBus .noAck sMatch).bridge.registerAt 0x9).isSome = true := by
  decide

/-- PullAppendsThePoppedByte: a match in the last cell, the end of a batch, and a drain that goes on. -/
theorem test_witness_pull :
    (sMatch.phase = .drain ∧ sMatch.len < sMatch.params.maxlen ∧ sMatch.busOutcome = .ack ∧ sMatch.bridge.latchAccess = false ∧
      sMatch.bridge.fifo = [0x0A] ∧ (appendByte 0x0A sMatch).terminated = true) ∧
    ((appendByte 0x42 sDrain).terminated = false ∧ sDrain.rem - 1 = 0) ∧
    ((appendByte 0x42 { sDrain with rem := 2 }).terminated = false ∧ (2 : BitVec 8) - 1 ≠ 0) := by decide

/-- PullOnEmptyFifoAppendsADraw, PullUnderLatchAccessAppendsDivisorLow. -/
theorem test_witness_pull_hazards :
    (let s := lfe 4 .acc [0x41] 1 .drain []
     s.phase = .drain ∧ s.len < s.params.maxlen ∧ s.busOutcome = .ack ∧ s.bridge.latchAccess = false ∧ s.bridge.fifo = []) ∧
    (let s := withLineControl 0x80 sDrain
     s.phase = .drain ∧ s.len < s.params.maxlen ∧ s.busOutcome = .ack ∧ s.bridge.latchAccess = true) := by decide

/-- EngineStepsFrame, EngineDrivesOnlyTwoAddresses: both engine steps complete with a transaction, at the
address the port drives. -/
theorem test_witness_engine_next :
    (∃ t, exec .lvl sQuery = .next t ∧ t.bus = some ⟨0xC8, .data 0x01⟩) ∧
    (∃ t, exec .pull sDrain = .next t ∧ t.bus = some ⟨0x80, .data 0x42⟩) ∧ fAddr sQuery = some 0xC8 ∧ fAddr sDrain = some 0x80 ∧
    (⟨sDrain, true⟩ : PortState).fAddr = some 0x80 :=
  ⟨⟨_, rfl, rfl⟩, ⟨_, rfl, rfl⟩, rfl, rfl, rfl⟩

/-- RdRxlvlReturnsTheOccupancy, RdRhrPopsTheHead: nonempty, empty and failing. -/
theorem test_witness_reads :
    (sCmp.bridge.fifo.length ≤ Config.fifoDepth ∧ sCmp.busOutcome = .ack ∧ sCmp.bridge.latchAccess = false ∧
      sCmp.bridge.fifo = 0x42 :: []) ∧
    (State.reset.busOutcome = .ack ∧ State.reset.bridge.fifo = []) ∧
    ((onBus (.err true) sCmp).busOutcome = .err true ∧ (onBus (.err true) sCmp).bridge.latchAccess = false) :=
  ⟨⟨fifoDepth_bounds.1, rfl, rfl, rfl⟩, ⟨rfl, rfl⟩, ⟨rfl, rfl⟩⟩

/-- RegrdReturnsTheSelectedRegister, RegwrWritesTheSelectedRegister, RegisterReadsBackWhatWasWritten: both views. -/
theorem test_witness_registers :
    State.reset.busOutcome = .ack ∧ State.reset.bridge.latchAccess = false ∧
    (withLineControl 0x80 State.reset).busOutcome = .ack ∧ (withLineControl 0x80 State.reset).bridge.latchAccess = true ∧
    (∃ t, exec (.regwr 0x3 0x80) State.reset = .next t) ∧
    (∃ t, exec (.regwr 0x0 0x60) (withLineControl 0x80 State.reset) = .next t) :=
  ⟨rfl, rfl, rfl, rfl, ⟨_, rfl⟩, ⟨_, rfl⟩⟩

/-- OffsetWithoutRegisterIsRefused: the first and last unassigned offset, the last assigned one, 0x07 while not valid;
FailedRegisterTransactionIsReported, at 0x00 and at 0x01 in the normal view. -/
theorem test_witness_offsets :
    0xA ≤ (0xA : Offset).toNat ∧ 0xA ≤ (0xF : Offset).toNat ∧ (0x9 : Offset).toNat < 0xA ∧ (0x9 : Offset) ≠ 0x7 ∧
    State.reset.bridge.triggerValid = false ∧
    (onBus (.err false) State.reset).busOutcome = .err false ∧ State.reset.bridge.registerAt 0x0 = some .holding ∧
    State.reset.bridge.registerAt 0x1 = some .unlisted :=
  ⟨by decide, by decide, by decide, by decide, Bool.and_false _, by decide, by decide, by decide⟩

/-- ForeignTransactionsFrame: a read and a write give next states. -/
theorem test_witness_foreign :
    (∃ t, exec .rdRxlvl sCmp = .next t) ∧ (∃ t, exec .rdRhr sCmp = .next t) ∧ (∃ t, exec (.regrd 0x3) sCmp = .next t) ∧
    (∃ t, exec (.regwr 0x4 0x00) sCmp = .next t) := ⟨⟨_, rfl⟩, ⟨_, rfl⟩, ⟨_, rfl⟩, ⟨_, rfl⟩⟩

/-- PushAppendsAtTheTail: a FIFO with room, and a full one. -/
theorem test_witness_push :
    State.reset.bridge.fifo.length < Config.fifoDepth ∧ Config.fifoDepth ≤ sFifoFull.bridge.fifo.length :=
  ⟨Nat.succ_pos _, by simp [sFifoFull, lfe]⟩

/-- ResetCompletesInEveryState: each of the three ways in which no byte is lost. -/
theorem test_witness_reset :
    sQuery.phase ≠ .drain ∧ sFull.len = sFull.params.maxlen ∧ (onBus .noAck sDrain).busOutcome = .noAck := by decide

/-- The pins of a clock edge with rst, cmd_valid, f_ack and took as given: cmd is POLL, rd_idx 0, f_err 0, f_data 0x42. -/
def pins (q : Params) (rst cmdValid fAck took : Bool) : Pins q := ⟨rst, cmdValid, 0b01, 0, fAck, false, 0x42, took⟩

/-- ClockEdgePrecedence: reset, a command taken, no command in IDLE, and both busy phases, with cmd_ready high and low. -/
theorem test_witness_edge :
    (pins sCmp.params true true false false).rst = true ∧ (pins sCmp.params false true false false).cmdValid = true ∧
    (pins sCmp.params false false false false).cmdValid = false ∧ sCmp.phase = .idle ∧ sQuery.phase = .query ∧ sDrain.phase = .drain ∧
    cmdReady false sCmp = true ∧ cmdReady false sDrain = false := by decide

/-- RequestHandshake: f_req raised, held without f_ack, lowered at f_ack, where the pop completes, and lowered at reset. -/
theorem test_witness_handshake :
    sDrain.Inv ∧ readDue sDrain = true ∧ (pins sDrain.params false false true false).fData = bridgeData sDrain ∧
    (∃ t, clockEdge ⟨sDrain, false⟩ (pins _ false false true false) = .next t ∧ t.fReq = true ∧ t.core.bus = none) ∧
    (∃ t, clockEdge ⟨sDrain, true⟩ (pins _ false false false false) = .next t ∧ t.fReq = true ∧ t.core.bus = none) ∧
    (∃ t, clockEdge ⟨sDrain, true⟩ (pins _ false false true false) = .next t ∧ t.fReq = false ∧
      t.core.bus = some ⟨0x80, .data 0x42⟩) ∧
    (∃ t, clockEdge ⟨sDrain, true⟩ (pins _ true false false true) = .next t ∧ t.fReq = false ∧ t.core.bridge.fifo = []) ∧
    (∃ t, clockEdge ⟨sDrain, true⟩ (pins _ true false false false) = .next t ∧ t.core.bridge.fifo = [0x42]) ∧
    sDrain.len ≠ sDrain.params.maxlen ∧ sDrain.bridge.latchAccess = false :=
  ⟨test_samples_inv.2.2.2.2.1, rfl, rfl, ⟨_, rfl, rfl, rfl⟩, ⟨_, rfl, rfl, rfl⟩, ⟨_, rfl, rfl, rfl⟩, ⟨_, rfl, rfl, rfl⟩, ⟨_, rfl, rfl⟩,
    by decide, rfl⟩

/-- R42: the LFE alone appends the byte on f_data. -/
theorem test_lfe_takes_the_byte_on_f_data :
    ∃ t, lfeEdge ⟨sDrain, true⟩ ⟨false, false, 0, 0, true, false, 0x5A, false⟩ = .next t ∧ t.core.sentence = [0x41, 0x5A] ∧
      t.core.bridge.fifo = [0x42] := ⟨_, rfl, by decide, rfl⟩

/-- EveryStepKeepsTheInvariant, NoStepFaultsUnderTheInvariant, LevelMonotonicity: an engine turn in DRAIN, and a level read by
software outside the block, which leaves the FIFO. -/
theorem test_witness_invariant_step :
    (let s := sDrain.withTurn ⟨.engine, .ack⟩
     s.Inv ∧ s.Counted ∧ isForeign s.nextTurn.action = false ∧ ∃ t, step s = .next t) ∧
    (let s := sDrain.withTurn ⟨.wire (.bus [0xC8]), .ack⟩
     s.Inv ∧ s.Counted ∧ isForeign s.nextTurn.action = true ∧ ∃ t, step s = .next t ∧ t.bridge.fifo = s.bridge.fifo) :=
  ⟨⟨inv_of_checked (by decide), fun _ => by decide, rfl, _, rfl⟩, inv_of_checked (by decide), fun _ => by decide, rfl, _, rfl, rfl⟩

/-- EngineNeverPopsAnEmptyFifo. -/
theorem test_witness_pop :
    sDrain.Inv ∧ sDrain.Counted ∧ sDrain.phase = .drain ∧ sDrain.bridge.latchAccess = false ∧
    ∃ t, exec .pull sDrain = .next t ∧ t.bus = some ⟨0x80, .data 0x42⟩ :=
  ⟨test_samples_inv.2.2.2.2.1, fun _ => by decide, rfl, rfl, _, rfl, rfl⟩

/-- BytesAreConserved: a clean run in which software outside the block reads the level and a TAKE then emits three bytes. -/
theorem test_witness_delivery :
    sCmp.Inv ∧ sCmp.Counted ∧ ∃ s, Delivers sCmp [] [0x41, 0x0D, 0x0A] s :=
  ⟨test_samples_inv.2.1, fun h => absurd h (by decide), _,
    .turn (p := []) (e := []) ⟨.wire (.cmd 0b10), .ack⟩
      (.turn (p := []) (e := []) ⟨.wire (.bus [0xC8]), .ack⟩ .start rfl
        ⟨fun _ h => (by cases h), fun h => absurd rfl h, fun _ => rfl, by decide, fun h => absurd h (by decide)⟩)
      rfl ⟨fun _ h => (by cases h), fun h => absurd rfl h, fun h => absurd h (by decide), by decide, fun h => absurd h (by decide)⟩⟩

/-- BytesAreConserved: a clean run in which one byte is pushed, in a turn whose bus outcome would have been an error. -/
theorem test_witness_pushed : ∃ s, Delivers State.reset [0x41] [] s :=
  ⟨_, .turn (p := []) (e := []) ⟨.wire (.line 0x41), .err true⟩ .start rfl
    ⟨fun _ h => (by cases h), fun _ => Nat.succ_pos _, fun h => absurd h (by decide), by decide, fun h => absurd h (by decide)⟩⟩

/-- FramingStateFollowsTheTable, PhaseAndResponseFollowTheTable: each change of st. -/
theorem test_witness_transitions :
    (∃ t, exec .pull sMatch = .next t ∧ t.st ≠ sMatch.st) ∧ (∃ t, exec .pull sFull = .next t ∧ t.st ≠ sFull.st) ∧
    (∃ t, exec .take sCmp = .next t ∧ t.st ≠ sCmp.st) ∧ (∃ t, exec .reset sOvf = .next t ∧ t.st ≠ sOvf.st) :=
  ⟨⟨_, rfl, by decide⟩, ⟨_, rfl, by decide⟩, ⟨_, rfl, by decide⟩, ⟨_, rfl, by decide⟩⟩

/-- OverflowIsSticky, OnlyResetDiscardsAPartialBuffer. -/
theorem test_witness_sticky :
    (sOvf.Inv ∧ sOvf.st = .ovf ∧ ∃ t, exec .take sOvf = .next t) ∧ (sMatch.Inv ∧ sMatch.st = .acc ∧ ∃ t, exec .pull sMatch = .next t) :=
  ⟨⟨test_samples_inv.2.2.1, rfl, _, rfl⟩, ⟨test_samples_inv.2.2.2.2.2.1, rfl, _, rfl⟩⟩

/-- WithoutErrorPortNothingFails: an environment that would fail the read, and a port that cannot say so. -/
theorem test_witness_no_error_port :
    let s := { onBus (.err true) sQuery with params := { sQuery.params with hasXerr := false } }
    s.params.hasXerr = false ∧ ∃ t, exec .lvl s = .next t := ⟨rfl, _, rfl⟩

/-- LenPortShowsTheLength, ReadPortShowsTheSentence: an index at len, TAKE's emission, and both latencies. -/
theorem test_witness_ports :
    sFull.Inv ∧ sCmp.Inv ∧ sCmp.phase = .idle ∧ sCmp.st = .cmp ∧ sCmp.len ≤ (3 : BitVec sCmp.params.idxw).toNat ∧
    sCmp.params.rdLatency = 0 ∧ ({ sCmp.params with rdLatency := 1 } : Params).rdLatency = 1 :=
  ⟨test_samples_inv.2.2.2.2.2.2.1, test_samples_inv.2.1, rfl, rfl, by decide, rfl, rfl⟩

/-- R43, R143: with RD_LATENCY 1 the port gives the byte of the clock before, and nothing known in the clock after a TAKE (log 34). -/
theorem test_read_port_latency :
    let s := { sCmp with params := { sCmp.params with rdLatency := 1 } }
    rdPort s s 1 0 7 = 0x0D ∧ ∃ t, exec .take s = .next t ∧ rdPort s t 1 0 7 = Config.undefinedCell 7 1 :=
  ⟨by decide, _, rfl, rfl⟩

/-- PollCycleIsTheBigStepFunction, PollCycleAlwaysEnds, SplitTerminatorIsDetected, with T1 to go into the last cell. -/
theorem test_witness_poll_cycle :
    sSplit.Inv ∧ sSplit.phase = .idle ∧ sSplit.st = .acc ∧ sSplit.bridge.latchAccess = false ∧
    1 ≤ sSplit.len ∧ sSplit.len < sSplit.params.maxlen ∧
    sSplit.byteAt (sSplit.len - 1) = Config.t0 ∧ sSplit.bridge.fifo = Config.t1 :: [] :=
  ⟨test_samples_inv.2.2.2.2.2.2.2, by decide⟩

/-- PollCycleAlwaysEnds: reads that are all answered, the level read acknowledged and every pop after it failed; and an answered PULL
that ends the command, or takes one off rem. -/
theorem test_witness_poll_answered :
    (BusOutcome.ack :: List.replicate 255 (.err true)).length = 256 ∧
    (∀ o, o ∈ BusOutcome.ack :: List.replicate 255 (.err true) → o ≠ .noAck) ∧
    (sDrain.Inv ∧ sDrain.phase = .drain ∧ (onBus (.err true) sDrain).busOutcome ≠ .noAck) :=
  ⟨by rw [List.length_cons, List.length_replicate],
    fun o h => (List.mem_cons.1 h).elim (fun h => by rw [h]; decide) fun h => by rw [(List.mem_replicate.1 h).2]; decide,
    test_samples_inv.2.2.2.2.1, rfl, by decide⟩

/-- R128: a pop that fails after an acknowledged level read ends the cycle with XERR and keeps the buffer. -/
theorem test_pop_fails_in_the_cycle :
    seen (pollCycle [.ack, .err false] sSplit) = some ⟨.acc, [0x41, 0x42, 0x0D], 0, .idle, some .xerr, [0x0A]⟩ := by decide

/-- What an acknowledged engine turn leaves. -/
def engineStep (s : State) : State :=
  match step (s.withTurn ⟨.engine, .ack⟩) with
  | .next t => t
  | _ => s

/-- The run from sQuery in which the engine alone moves: LVL, PULL, the end of the response, and nothing more. -/
def engineRun : Run where
  state
    | 0 => sQuery
    | 1 => engineStep sQuery
    | 2 => engineStep (engineStep sQuery)
    | _ => engineStep (engineStep (engineStep sQuery))
  turn _ := ⟨.engine, .ack⟩
  next
    | 0 => rfl
    | 1 => rfl
    | 2 => rfl
    | _ + 3 => rfl

/-- FairRunsAnswerEveryCommand: a fair run with a command in progress. -/
theorem test_witness_fair : engineRun.Fair ∧ (engineRun.state 0).Inv ∧ (engineRun.state 0).phase ≠ .idle :=
  ⟨⟨fun n _ => ⟨n, Nat.le_refl n, rfl⟩, fun n _ => ⟨n, Nat.le_refl n, rfl, fun h => (by cases h)⟩⟩, test_samples_inv.2.2.2.1,
    by decide⟩

/-- FeedCompletesOnceAtTheTerminator, AcquireReturnsTheSentence: a sentence that fills the buffer of MAXLEN 4, and the bare terminator
in chunks of one and of no byte. -/
theorem test_witness_feed :
    let s := lfe 4 .acc [] 0 .idle []
    s.Inv ∧ s.phase = .idle ∧ s.st = .acc ∧ s.len = 0 ∧ s.bridge.fifo = [] ∧ s.bridge.latchAccess = false ∧
    isSentence s.params.maxlen [0x0D, 0x41, 0x0D, 0x0A] ∧ isSentence s.params.maxlen [[0x0D], [], [0x0A]].flatten ∧
    ∀ c, c ∈ [[0x0D], [], [(0x0A : Byte)]] → c.length ≤ Config.fifoDepth := by
  have h : ∀ i, i < 3 → 1 ≤ i →
      ¬(bytesAt [0x0D, 0x41, 0x0D, 0x0A] (i - 1) = Config.t0 ∧ bytesAt [0x0D, 0x41, 0x0D, 0x0A] i = Config.t1) := by decide
  exact ⟨inv_of_checked (by decide), rfl, rfl, rfl, rfl, rfl,
    ⟨by decide, by decide, by decide, fun i h1 h2 => h i h2 h1⟩,
    ⟨by decide, by decide, by decide, fun i h1 h2 => absurd h2 (by simp; omega)⟩,
    fun c hc => Nat.le_trans (by simp at hc; rcases hc with rfl | rfl | rfl <;> decide) fifoDepth_bounds.1⟩

/-- AcquireEndsAsItsResponseSays: a full buffer with a byte waiting, a port that can report a failure, a FIFO with a byte and an empty
one, and each of the three endings reached. -/
theorem test_witness_acquire :
    (let s := lfe 4 .acc [0x41, 0x42, 0x43, 0x44] 0 .idle [0x45]
     s.Inv ∧ s.phase = .idle ∧ s.st = .acc ∧ s.len = s.params.maxlen ∧ s.bridge.fifo ≠ [] ∧
     ∃ t, acquire [.lfe .ack, .lfe .ack, .lfe .ack] s = .framingError t) ∧
    (sSplit.params.hasXerr = true ∧ sSplit.len ≠ sSplit.params.maxlen ∧ sSplit.bridge.fifo ≠ [] ∧
     ∃ t, acquire [.lfe .ack, .lfe .ack, .lfe (.err true)] sSplit = .transportError t) ∧
    ((lfe 4 .acc [] 0 .idle []).bridge.fifo = [] ∧
     ∃ t, acquire [.lfe .ack, .lfe .ack, .lfe .ack, .lfe .ack] sSplit = .sentence [0x41, 0x42, 0x0D, 0x0A] t) :=
  ⟨⟨inv_of_checked (by decide), rfl, rfl, rfl, by decide, _, rfl⟩, ⟨rfl, by decide, by decide, _, rfl⟩, rfl, _, rfl⟩

/-- FeedOverflowsPastTheBound: MAXLEN 2, and T1 after T0 only beyond the bound. -/
theorem test_witness_feed_overflow :
    let s := lfe 2 .acc [] 0 .idle []
    s.Inv ∧ s.phase = .idle ∧ s.st = .acc ∧ s.len = 0 ∧ s.bridge.fifo = [] ∧ s.bridge.latchAccess = false ∧
    [0x41, 0x0D, 0x0A].length = s.params.maxlen + 1 ∧ noTerminatorBefore (bytesAt [0x41, 0x0D, 0x0A]) s.params.maxlen := by
  have h : ∀ i, i < 2 → 1 ≤ i →
      ¬(bytesAt [0x41, 0x0D, 0x0A] (i - 1) = Config.t0 ∧ bytesAt [0x41, 0x0D, 0x0A] i = Config.t1) := by decide
  exact ⟨inv_of_checked (by decide), rfl, rfl, rfl, rfl, rfl, rfl, fun i h1 h2 => h i h2 h1⟩

end Sys2Proof.Tests
end

section
/-! PROOFS. What a step does with the turn it takes (00_scope.md R15, 20_memory.md R62), and what it does with an empty schedule. -/

namespace Sys2Proof.Machine

/-! ### The turn put in front of the schedule -/

/-- A turn whose form decodes is run as the operation it decodes to (R15, R103). -/
theorem step_withTurn_of_decode {s : State} {t : Turn} {w : Wire} {i : Instr}
    (hwire : wireOf s.phase t.action = some w) (hdec : decode w = .ok i) :
    step (s.withTurn t) = exec i (s.meeting t.outcome) := by
  rw [step, withTurn_phase, nextTurn_withTurn, hwire, takeTurn_withTurn]
  simp only [runWire, hdec, State.meeting]

/-- A turn with no operation to run only clears the outputs (R210, log 23). -/
theorem step_withTurn_of_wireOf_none {s : State} {t : Turn} (hwire : wireOf s.phase t.action = none) :
    step (s.withTurn t) = .next (s.meeting t.outcome).quiet := by
  rw [step, withTurn_phase, nextTurn_withTurn, hwire, takeTurn_withTurn, State.meeting]

/-- The engine's turn in QUERY is LVL (R113, R172). -/
theorem wireOf_engine_query {s : State} (h : s.phase = .query) : wireOf s.phase .engine = some (.micro .query) := by
  rw [h]; rfl

/-- The engine's turn in DRAIN is PULL (R115, R172). -/
theorem wireOf_engine_drain {s : State} (h : s.phase = .drain) : wireOf s.phase .engine = some (.micro .drain) := by
  rw [h]; rfl

/-- The engine has no turn to take in IDLE (R25, R172). -/
theorem wireOf_engine_idle {s : State} (h : s.phase = .idle) : wireOf s.phase .engine = none := by
  rw [h]; rfl

/-! ### The empty schedule -/

/-- A step depends on its state through the phase, the turn due and the state in which the turn's operation runs. -/
theorem step_congr {s t : State} (hphase : s.phase = t.phase) (hturn : s.nextTurn = t.nextTurn)
    (htake : s.takeTurn = t.takeTurn) : step s = step t := by
  rw [step, step, hphase, hturn, htake]

/-- With nothing scheduled the turn due is the free one (log 1). -/
theorem nextTurn_of_schedule_nil {s : State} (h : s.schedule = []) : s.nextTurn = Config.freeTurn s.draws := by
  rw [State.nextTurn, h]

/-- With nothing scheduled, taking the turn latches the free turn's outcome and advances the draw counter (log 1). -/
theorem takeTurn_of_schedule_nil {s : State} (h : s.schedule = []) :
    s.takeTurn = { s with outcome := (Config.freeTurn s.draws).outcome, draws := s.draws + 1 } := by
  rw [State.takeTurn, h]

end Sys2Proof.Machine

open Sys2Proof Sys2Proof.Machine

/-- Settles O5: an outside agent's turn carries its own form, and the engine's turn the form its phase selects, if any. -/
theorem stepRunsTheDecodedInstruction : Obligations.StepRunsTheDecodedInstruction := by
  intro s o
  refine ⟨fun w i hdec => ?wire, fun hquery => ?query, fun hdrain => ?drain, fun hidle => ?idle⟩
  case wire => exact step_withTurn_of_decode rfl hdec
  case query => exact step_withTurn_of_decode (wireOf_engine_query hquery) rfl
  case drain => exact step_withTurn_of_decode (wireOf_engine_drain hdrain) rfl
  case idle => exact step_withTurn_of_wireOf_none (wireOf_engine_idle hidle)

/-- Settles O6: the state with the free turn put in front has the same phase, the same turn due, and the same state after the turn
is taken. -/
theorem emptyScheduleTakesAFreeTurn : Obligations.EmptyScheduleTakesAFreeTurn := by
  intro s hs
  refine step_congr rfl ?turn ?take
  case turn => rw [nextTurn_withTurn, nextTurn_of_schedule_nil hs]
  case take => rw [takeTurn_withTurn, takeTurn_of_schedule_nil hs]

end

section
/-! PROOFS. What one operation can do, as one relation between the states before and after it, with one constructor for each rule it
can follow; what a step does with the turn it takes; and the facts of the reset state (10_state.md R38). -/

namespace Sys2Proof.Machine

/-! ### One operation -/

/-- The four host commands (R81). -/
abbrev HostCommand (i : Instr) : Prop := i = .nop ∨ i = .poll ∨ i = .take ∨ i = .rsvd

/-- The operations of software outside the block (R156 to R159). -/
abbrev ForeignAccess (i : Instr) : Prop := i = .rdRxlvl ∨ i = .rdRhr ∨ (∃ r, i = .regrd r) ∨ ∃ r v, i = .regwr r v

/-- The next states an operation can give. `f` is what a read leaves of the FIFO and `d` of the draw counter. -/
inductive Effect (s : State) : Instr → State → Prop where
  /-- a command offered while busy, or a micro-step that is not enabled or not answered (R41, R236; log 23) -/
  | holds {i : Instr} (hi : HostCommand i ∨ i = .lvl ∨ i = .pull) : Effect s i s.quiet
  /-- a command that only answers the code of st (R122, R142, R144, R145) -/
  | answers {i : Instr} (hi : HostCommand i) (hp : s.phase = .idle) : Effect s i s.quiet.respondStatus
  /-- a POLL accepted in ACC (R111) -/
  | beginsPoll (hp : s.phase = .idle) (hst : s.st = .acc) : Effect s .poll { s.quiet with phase := .query }
  /-- a TAKE accepted in CMP (R141) -/
  | emits (hp : s.phase = .idle) (hst : s.st = .cmp) :
      Effect s .take ({ s.quiet with emission := some s.sentence, len := 0, st := .acc }.respond .none)
  /-- a level read or a pop that failed (R113, R117) -/
  | failsRead {i : Instr} (hi : i = .lvl ∨ i = .pull) (hp : s.phase ≠ .idle) (a : Byte) {f : List Byte} (d : Nat)
      (hf : f = s.bridge.fifo ∨ f = s.bridge.fifo.tail) :
      Effect s i { s.quiet with
        bridge := { s.bridge with fifo := f }, draws := d, bus := some ⟨a, .failed⟩ }.raiseTransportError
  /-- the level is zero (R113) -/
  | readsLevelZero (hp : s.phase = .query) : Effect s .lvl ({ s.quiet with bus := some ⟨0xC8, .data 0⟩ }.endCommand .none)
  /-- the level gives the batch (R113) -/
  | beginsBatch (hp : s.phase = .query) (hn : BitVec.ofNat 8 s.bridge.fifo.length ≠ 0#8) :
      Effect s .lvl { s.quiet with
        rem := BitVec.ofNat 8 s.bridge.fifo.length, phase := .drain,
        bus := some ⟨0xC8, .data (BitVec.ofNat 8 s.bridge.fifo.length)⟩ }
  /-- the buffer is full (R116) -/
  | overflows (hp : s.phase = .drain) (hl : s.len = s.params.maxlen) : Effect s .pull s.quiet.raiseOverflow
  /-- the popped byte is appended (R118 to R121) -/
  | appends (hp : s.phase = .drain) (hl : s.len < s.params.maxlen) (hack : s.busOutcome = .ack) {b : Byte} {f : List Byte}
      {d : Nat} (hpop : s.quiet.fifoPop = (.ok b, popped s b f d)) (hf : f = s.bridge.fifo ∨ f = s.bridge.fifo.tail) :
      Effect s .pull (afterAppend (appendByte b (popped s b f d)))
  /-- the producer's byte arrives (R161, R162) -/
  | pushes (b : Byte) : Effect s (.push b) { s.offClock with bridge := s.bridge.push b }
  /-- reset (R216, R217) -/
  | resets {f : List Byte} (d : Nat) (hf : f = s.bridge.fifo ∨ f = s.bridge.fifo.tail) :
      Effect s .reset (resetWrites { s with bridge := { s.bridge with fifo := f }, draws := d })
  /-- a transaction of software outside the block, which can pop the FIFO or empty it (R156 to R159) -/
  | transacts {i : Instr} (hi : ForeignAccess i) {c : Bridge} (d : Nat) (x : Option BusTxn)
      (hf : c.fifo = s.bridge.fifo ∨ c.fifo = s.bridge.fifo.tail ∨ c.fifo = []) :
      Effect s i { s.offClock with bridge := c, draws := d, bus := x }

/-- A command offered while busy changes only the outputs of the step before (R41, R147). -/
theorem accept_busy {s : State} (f : State → State) (hp : s.phase ≠ .idle) : s.accept f = s.quiet := if_neg hp

theorem accept_idle {s : State} (f : State → State) (hp : s.phase = .idle) : s.accept f = f s.quiet := if_pos hp

/-- What a host command does, as a function of the state (R111, R141 to R145). -/
def commandStep : Instr → State → State
  | .poll => pollAccept
  | .take => takeStep
  | _ => State.respondStatus

theorem exec_hostCommand {i : Instr} (hi : HostCommand i) (s : State) : exec i s = .next (s.accept (commandStep i)) := by
  obtain rfl | rfl | rfl | rfl := hi <;> rfl

theorem pollAccept_cases (s : State) :
    (s.st = .acc ∧ pollAccept s = { s with phase := .query }) ∨ (s.st ≠ .acc ∧ pollAccept s = s.respondStatus) := by
  unfold pollAccept State.respondStatus
  cases s.st
  case acc => exact .inl ⟨rfl, rfl⟩
  case cmp => exact .inr ⟨by decide, rfl⟩
  case ovf => exact .inr ⟨by decide, rfl⟩

theorem takeStep_cases (s : State) :
    (s.st = .cmp ∧ takeStep s = { s with emission := some s.sentence, len := 0, st := .acc }.respond .none) ∨
    (s.st ≠ .cmp ∧ takeStep s = s.respondStatus) := by
  unfold takeStep
  cases s.st
  case cmp => exact .inl ⟨rfl, rfl⟩
  case acc => exact .inr ⟨by decide, rfl⟩
  case ovf => exact .inr ⟨by decide, rfl⟩

theorem effect_of_hostCommand {i : Instr} (hi : HostCommand i) (s : State) : Effect s i (s.accept (commandStep i)) := by
  by_cases hp : s.phase = .idle
  · have hanswers : Effect s i s.quiet.respondStatus := .answers hi hp
    rw [accept_idle _ hp]
    obtain rfl | rfl | rfl | rfl := hi
    · exact hanswers
    · obtain ⟨hst, h⟩ | ⟨-, h⟩ := pollAccept_cases s.quiet <;> rw [commandStep, h]
      · exact .beginsPoll hp hst
      · exact hanswers
    · obtain ⟨hst, h⟩ | ⟨-, h⟩ := takeStep_cases s.quiet <;> rw [commandStep, h]
      · exact .emits hp hst
      · exact hanswers
    · exact hanswers
  · exact accept_busy _ hp ▸ .holds (.inl hi)

theorem effect_of_execLvl {s t : State} (h : execLvl s = .next t) : Effect s .lvl t := by
  obtain ⟨-, he⟩ | ⟨-, -, he⟩ | ⟨hp, -, he⟩ | ⟨hp, -, -, he⟩ | ⟨hp, -, hn, he⟩ := execLvl_cases s <;>
    cases h.symm.trans he
  · exact .holds (.inr (.inl rfl))
  · exact .holds (.inr (.inl rfl))
  · exact .failsRead (.inl rfl) (by simp [hp]) 0xC8 s.draws (.inl rfl)
  · exact .readsLevelZero hp
  · exact .beginsBatch hp hn

theorem effect_of_execPull {s t : State} (h : execPull s = .next t) : Effect s .pull t := by
  obtain ⟨-, he⟩ | ⟨hp, hl, he⟩ | ⟨-, -, -, he⟩ | ⟨hp, -, took, f, d, -, hf, he⟩ |
    ⟨hp, -, b, f, d, hack, hpop, hf, ⟨hl, he⟩ | ⟨-, he⟩⟩ := execPull_cases s <;> cases h.symm.trans he
  · exact .holds (.inr (.inr rfl))
  · exact .overflows hp hl
  · exact .holds (.inr (.inr rfl))
  · exact .failsRead (.inr rfl) (by simp [hp]) 0x80 d hf
  · exact .appends hp hl hack hpop hf

theorem effect_of_foreignAccess {i : Instr} {s t : State} (hi : ForeignAccess i) (h : exec i s = .next t) : Effect s i t := by
  obtain ⟨r, he⟩ | ⟨c, d, x, he, hc⟩ := execForeign_cases hi s <;> cases h.symm.trans he
  refine .transacts hi d x ?_
  obtain ⟨f, rfl, hf⟩ | ⟨r, v, reg, -, rfl⟩ := hc
  · exact hf.imp_right .inl
  · exact (writeRegister_fifo reg v s.bridge).imp_right .inr

/-- Every next state an operation gives is one of the relation's. -/
theorem exec_effect {i : Instr} {s t : State} (h : exec i s = .next t) : Effect s i t := by
  have hcommand (hi : HostCommand i) : Effect s i t := by
    cases h.symm.trans (exec_hostCommand hi s); exact effect_of_hostCommand hi s
  cases i with
  | nop => exact hcommand (.inl rfl)
  | poll => exact hcommand (.inr (.inl rfl))
  | take => exact hcommand (.inr (.inr (.inl rfl)))
  | rsvd => exact hcommand (.inr (.inr (.inr rfl)))
  | rdRxlvl => exact effect_of_foreignAccess (.inl rfl) h
  | rdRhr => exact effect_of_foreignAccess (.inr (.inl rfl)) h
  | regrd r => exact effect_of_foreignAccess (.inr (.inr (.inl ⟨r, rfl⟩))) h
  | regwr r v => exact effect_of_foreignAccess (.inr (.inr (.inr ⟨r, v, rfl⟩))) h
  | lvl => exact effect_of_execLvl h
  | pull => exact effect_of_execPull h
  | push b => cases h; exact .pushes b
  | reset =>
    obtain ⟨f, d, he, hf⟩ := execReset_cases s
    cases h.symm.trans he
    exact .resets d hf

/-- The end of a PULL writes st, rem, phase and the response at most (R119, R120, R121). -/
theorem afterAppend_frame (a : State) : ∃ st rem phase rsp, afterAppend a = { a with st, rem, phase, rsp } := by
  obtain ⟨-, h⟩ | ⟨-, -, h⟩ | ⟨-, -, h⟩ := afterAppend_cases a
  · exact ⟨_, _, _, _, h⟩
  · exact ⟨_, _, _, _, h⟩
  · exact ⟨_, _, _, _, h⟩

@[simp] theorem afterAppend_len (a : State) : (afterAppend a).len = a.len := by
  obtain ⟨_, _, _, _, h⟩ := afterAppend_frame a; rw [h]
@[simp] theorem afterAppend_buf (a : State) : (afterAppend a).buf = a.buf := by
  obtain ⟨_, _, _, _, h⟩ := afterAppend_frame a; rw [h]
@[simp] theorem afterAppend_bridge (a : State) : (afterAppend a).bridge = a.bridge := by
  obtain ⟨_, _, _, _, h⟩ := afterAppend_frame a; rw [h]
@[simp] theorem afterAppend_emission (a : State) : (afterAppend a).emission = a.emission := by
  obtain ⟨_, _, _, _, h⟩ := afterAppend_frame a; rw [h]
@[simp] theorem afterAppend_params (a : State) : (afterAppend a).params = a.params := by
  obtain ⟨_, _, _, _, h⟩ := afterAppend_frame a; rw [h]
@[simp] theorem afterAppend_draws (a : State) : (afterAppend a).draws = a.draws := by
  obtain ⟨_, _, _, _, h⟩ := afterAppend_frame a; rw [h]

@[simp] theorem popped_len (s : State) (b : Byte) (f : List Byte) (d : Nat) : (popped s b f d).len = s.len := rfl
@[simp] theorem popped_buf (s : State) (b : Byte) (f : List Byte) (d : Nat) : (popped s b f d).buf = s.buf := rfl
@[simp] theorem popped_params (s : State) (b : Byte) (f : List Byte) (d : Nat) : (popped s b f d).params = s.params := rfl
@[simp] theorem popped_emission (s : State) (b : Byte) (f : List Byte) (d : Nat) : (popped s b f d).emission = none := rfl
@[simp] theorem popped_fifo (s : State) (b : Byte) (f : List Byte) (d : Nat) : (popped s b f d).bridge.fifo = f := rfl

theorem Effect.params {i : Instr} {s t : State} (h : Effect s i t) : t.params = s.params := by
  cases h with
  | appends => simp
  | _ => rfl

/-- Only the append writes a cell, the one at len; len grows by one there and becomes 0 in TAKE and RESET (R22, R23). -/
theorem Effect.buffer {i : Instr} {s t : State} (h : Effect s i t) :
    (t.buf = s.buf ∧ (t.len = s.len ∨ (i = .take ∨ i = .reset) ∧ t.len = 0)) ∨
    (i = .pull ∧ t.len = s.len + 1 ∧ ∃ b, t.buf = s.buf.write s.len b) := by
  cases h with
  | appends => exact .inr ⟨rfl, by simp, _, by simp; rfl⟩
  | emits => exact .inl ⟨rfl, .inr ⟨.inl rfl, rfl⟩⟩
  | resets => exact .inl ⟨rfl, .inr ⟨.inr rfl, rfl⟩⟩
  | _ => exact .inl ⟨rfl, .inl rfl⟩

/-! ### The turn of a step -/

/-- A step that gives a next state runs the operation its turn's form decodes to, or is an engine turn in IDLE (R15, R210). -/
theorem step_next_cases {s t : State} (h : step s = .next t) :
    (wireOf s.phase s.nextTurn.action = none ∧ t = s.takeTurn.quiet) ∨
    (∃ w i, wireOf s.phase s.nextTurn.action = some w ∧ decode w = .ok i ∧ exec i s.takeTurn = .next t) := by
  unfold step at h
  split at h
  next w hw =>
    unfold runWire at h
    split at h
    next i hi => exact .inr ⟨w, i, hw, hi, h⟩
    next => cases h
  next hw => cases h; exact .inl ⟨hw, rfl⟩

end Sys2Proof.Machine

open Sys2Proof Sys2Proof.Machine

/-- Settles O12: each command is accepted by the same operation, which does nothing while busy. -/
theorem commandWhileBusyHasNoEffect : Obligations.CommandWhileBusyHasNoEffect := by
  intro s hbusy i hi
  rw [exec_hostCommand hi, accept_busy _ hbusy, State.quiet]

/-- Settles O44: no effect of an operation writes the parameters. -/
theorem parametersNeverChange : Obligations.ParametersNeverChange :=
  fun _ _ _ h => (exec_effect h).params

/-- Settles O45: a read after the one write differs only at the index written. -/
theorem onlyPullWritesTheBuffer : Obligations.OnlyPullWritesTheBuffer := by
  intro i s t h
  obtain ⟨hbuf, hlen⟩ | ⟨rfl, hlen, b, hbuf⟩ := (exec_effect h).buffer
  · exact ⟨fun a ha => absurd (by rw [hbuf]) ha, fun hne => .inr (hlen.resolve_left hne)⟩
  · refine ⟨fun a ha => ⟨rfl, by_contra fun hne => ha ?_, hlen⟩, fun _ => .inl ⟨rfl, hlen⟩⟩
    rw [hbuf, Memory.read_write_other _ _ hne]

/-- Settles O34: the values stand in State.reset, and no index is below len 0. -/
theorem resetStateHasTheValuesOfTheTable : Obligations.ResetStateHasTheValuesOfTheTable :=
  ⟨rfl, rfl, rfl, rfl, rfl, rfl, fun _ _ => rfl, rfl, rfl, by decide, by decide⟩

end

section
/-! PROOFS. The invariant (10_state.md R33 to R36, 43_state_machine.md R173): at reset, and over every step. -/

namespace Sys2Proof.Machine

/-! ### Updates that keep the invariant -/

/-- Taking the turn latches its outcome and may advance the draw counter, which no byte below len depends on. -/
theorem State.Inv.takeTurn {s : State} (h : s.Inv) : s.takeTurn.Inv := by
  obtain ⟨sch, d, ht⟩ := takeTurn_frame s
  have hi : ({ s.takeTurn with emission := none } : State).Inv := by
    rw [ht]; exact h.of_same rfl rfl rfl rfl rfl rfl h.fifoBound (.inr rfl) rfl
  rw [ht] at hi ⊢
  exact { hi with emissionSentence := h.emissionSentence }

theorem State.Inv.quiet {s : State} (h : s.Inv) : s.quiet.Inv :=
  h.of_same rfl rfl rfl rfl rfl rfl h.fifoBound (.inl rfl) rfl

/-- A command answered with the code of st (R41, R82). -/
theorem State.Inv.respondStatus {s : State} (h : s.Inv) (hp : s.phase = .idle) : s.respondStatus.Inv :=
  { h with
    responseIdle := fun _ => hp
    responseCode := fun r hr => .inr (by simpa using hr.symm) }

/-- A command that ends with the code of st, or with XERR in ACC (R24, R82). -/
theorem State.Inv.endCommand {s : State} {r : Response} (h : s.Inv) (hr : (r = .xerr ∧ s.st = .acc) ∨ r = s.st.response) :
    (s.endCommand r).Inv :=
  { h with
    busyAccumulates := fun hb => absurd rfl hb
    remOutsideDrain := fun _ => rfl
    remInDrain := fun hd => by cases hd
    responseIdle := fun _ => rfl
    responseCode := fun q hq => by cases hq; exact hr }

theorem State.Inv.raiseTransportError {s : State} (h : s.Inv) (hs : s.st = .acc) : s.raiseTransportError.Inv :=
  h.endCommand (.inl ⟨rfl, hs⟩)

/-- A full buffer without a terminator becomes OVF (R36, R116). -/
theorem State.Inv.raiseOverflow {s : State} (h : s.Inv) (hs : s.st = .acc) (hl : s.len = s.params.maxlen) :
    s.raiseOverflow.Inv :=
  { h.endCommand (r := .none) (.inr (by rw [hs]; rfl)) with
    accNoTerminator := fun ha => by cases ha
    cmpTerminated := fun hc => by cases hc
    ovfFull := fun _ => ⟨hl, h.accNoTerminator hs⟩
    busyAccumulates := fun hb => absurd rfl hb
    responseIdle := fun _ => rfl
    responseCode := fun q hq => .inr (by cases hq; rfl) }

/-- An empty buffer in ACC (R141, R216). -/
theorem State.Inv.emptied {s : State} (h : s.Inv) (hr : s.rsp = none) : ({ s with st := .acc, len := 0 } : State).Inv :=
  { h with
    lenBound := Nat.zero_le _
    bufFilled := fun _ hi => absurd hi (Nat.not_lt_zero _)
    accNoTerminator := fun _ _ _ hi => absurd hi (Nat.not_lt_zero _)
    cmpTerminated := fun hc => by cases hc
    ovfFull := fun ho => by cases ho
    busyAccumulates := fun _ => rfl
    responseCode := fun q hq => by simp [hr] at hq }

theorem length_le_of_eq_or_tail {f l : List Byte} (h : f = l ∨ f = l.tail) : f.length ≤ l.length := by
  obtain rfl | rfl := h <;> simp

/-- In CMP the sentence is a Sentence value (R35, R90). -/
theorem State.Inv.isSentence_sentence {s : State} (h : s.Inv) (hc : s.st = .cmp) : isSentence s.params.maxlen s.sentence := by
  obtain ⟨hterm, hnone⟩ := h.cmpTerminated hc
  have hbyte : ∀ i, i < s.len → bytesAt s.sentence i = s.byteAt i := fun i hi => bytesAt_sentence s hi
  unfold isSentence
  rw [sentence_length]
  refine ⟨((terminatorMatch_iff _ _).1 hterm).1, h.lenBound, ?_, ?_⟩
  · rw [terminatorMatch_congr hbyte]; exact hterm
  · exact noTerminatorBefore_congr (fun i hi => hbyte i (by omega)) hnone

/-- TAKE in CMP (R141). -/
theorem State.Inv.emit {s : State} (h : s.Inv) (hp : s.phase = .idle) (hc : s.st = .cmp) (hr : s.rsp = none) :
    ({ s with emission := some s.sentence, len := 0, st := .acc }.respond .none).Inv :=
  { h.emptied hr with
    responseIdle := fun _ => hp
    responseCode := fun q hq => .inr (by cases hq; rfl)
    emissionSentence := fun l hl => by cases hl; exact h.isSentence_sentence hc }

/-- The accept step of a POLL (R111). -/
theorem State.Inv.beginPoll {s : State} (h : s.Inv) (hp : s.phase = .idle) (hs : s.st = .acc) (hr : s.rsp = none) :
    ({ s with phase := .query } : State).Inv :=
  { h with
    busyAccumulates := fun _ => hs
    remOutsideDrain := fun _ => h.remOutsideDrain (by rw [hp]; decide)
    remInDrain := fun hd => by cases hd
    responseIdle := fun hne => absurd hr hne }

/-- A state that goes on draining with n bytes to pull (R113, R121). -/
theorem State.Inv.drain {s : State} {n : BitVec 8} (h : s.Inv) (hs : s.st = .acc) (hr : s.rsp = none) (hn : n ≠ 0) :
    ({ s with rem := n, phase := .drain } : State).Inv :=
  { h with
    busyAccumulates := fun _ => hs
    remOutsideDrain := fun hd => absurd rfl hd
    remInDrain := fun _ => hn
    responseIdle := fun hne => absurd hr hne }

/-! ### The append of a PULL (R118 to R121) -/

/-- The write alone, to the cell beyond the sentence. -/
theorem State.Inv.storeByte {s : State} (h : s.Inv) (hl : s.len < s.params.maxlen) (b : Byte) :
    ({ s with buf := s.buf.write s.len b } : State).Inv := by
  have hbyte : ∀ i, i < s.len → ({ s with buf := s.buf.write s.len b } : State).byteAt i = s.byteAt i :=
    fun i hi => byteAt_appendByte_other b s (Nat.ne_of_lt hi)
  have hnone : ∀ n, n ≤ s.len → noTerminatorBefore s.byteAt n →
      noTerminatorBefore ({ s with buf := s.buf.write s.len b } : State).byteAt n :=
    fun n hn => noTerminatorBefore_congr fun i hi => hbyte i (by omega)
  exact
    { h with
      bufCanonical := Memory.write_wf _ _ h.bufCanonical
      bufInside := fun c hc => by
        obtain rfl | hc := Memory.mem_write hc
        · exact hl
        · exact h.bufInside c hc
      bufFilled := fun i hi => by
        rw [Memory.read_write_other _ _ (Nat.ne_of_lt hi)]; exact h.bufFilled i hi
      accNoTerminator := fun ha => hnone _ (Nat.le_refl _) (h.accNoTerminator ha)
      cmpTerminated := fun hc => by
        obtain ⟨hterm, hn⟩ := h.cmpTerminated hc
        exact ⟨by rw [State.terminated, terminatorMatch_congr hbyte]; exact hterm, hnone _ (Nat.sub_le _ _) hn⟩
      ovfFull := fun ho => ⟨(h.ovfFull ho).1, hnone _ (Nat.le_refl _) (h.ovfFull ho).2⟩ }

/-- The cells below len + 1 hold a value after the append. -/
theorem appendByte_filled {s : State} (h : s.Inv) (b : Byte) {i : Nat} (hi : i < s.len + 1) :
    ((appendByte b s).buf.read i).isSome = true := by
  rw [appendByte_buf, Memory.read_write]
  split
  · rfl
  · exact h.bufFilled i (by omega)

theorem appendByte_noTerminatorBefore {s : State} (h : s.Inv) (hs : s.st = .acc) (b : Byte) :
    noTerminatorBefore (appendByte b s).byteAt s.len :=
  noTerminatorBefore_congr (fun _ hi => byteAt_appendByte_other b s (Nat.ne_of_lt hi)) (h.accNoTerminator hs)

/-- The append ends the sentence (R119). -/
theorem State.Inv.append_match {s : State} (h : s.Inv) (hs : s.st = .acc) (hl : s.len < s.params.maxlen) {b : Byte}
    (hm : (appendByte b s).terminated = true) : ({ appendByte b s with st := .cmp }.endCommand .sent).Inv :=
  { (h.storeByte hl b).endCommand (r := .none) (.inr (by rw [hs]; rfl)) with
    lenBound := hl
    bufFilled := fun _ hi => appendByte_filled h b hi
    accNoTerminator := fun ha => by cases ha
    cmpTerminated := fun _ => ⟨hm, appendByte_noTerminatorBefore h hs b⟩
    ovfFull := fun ho => by cases ho
    busyAccumulates := fun hb => absurd rfl hb
    responseIdle := fun _ => rfl
    responseCode := fun q hq => .inr (by cases hq; rfl) }

/-- The append does not end the sentence, and the batch ends (R120). -/
theorem State.Inv.append_end {s : State} (h : s.Inv) (hs : s.st = .acc) (hl : s.len < s.params.maxlen) {b : Byte}
    (hm : (appendByte b s).terminated = false) : ((appendByte b s).endCommand .none).Inv :=
  { (h.storeByte hl b).endCommand (r := .none) (.inr (by rw [hs]; rfl)) with
    lenBound := hl
    bufFilled := fun _ hi => appendByte_filled h b hi
    accNoTerminator := fun _ => noTerminatorBefore_succ _ _ (appendByte_noTerminatorBefore h hs b) hm
    cmpTerminated := fun hc => by cases hs.symm.trans hc
    ovfFull := fun ho => by cases hs.symm.trans ho }

theorem State.Inv.afterAppend {s : State} (h : s.Inv) (hs : s.st = .acc) (hl : s.len < s.params.maxlen) (hp : s.phase = .drain)
    (hr : s.rsp = none) (b : Byte) : (afterAppend (appendByte b s)).Inv := by
  obtain ⟨hm, he⟩ | ⟨hm, -, he⟩ | ⟨hm, hrem, he⟩ := afterAppend_cases (appendByte b s) <;> rw [he]
  · exact h.append_match hs hl hm
  · exact h.append_end hs hl hm
  · exact
      { h.append_end hs hl hm with
        busyAccumulates := fun _ => hs
        remOutsideDrain := fun hd => absurd hp hd
        remInDrain := fun _ => hrem
        responseIdle := fun hne => absurd hr hne
        responseCode := fun q hq => by cases hr.symm.trans hq }

/-! ### Every operation -/

/-- What a read leaves of the state, with the outputs of the step before gone (R57). -/
theorem State.Inv.afterRead {s : State} (h : s.Inv) {f : List Byte} (d : Nat) (x : Option BusTxn)
    (hf : f = s.bridge.fifo ∨ f = s.bridge.fifo.tail) :
    ({ s.quiet with bridge := { s.bridge with fifo := f }, draws := d, bus := x } : State).Inv :=
  h.of_same rfl rfl rfl rfl rfl rfl (Nat.le_trans (length_le_of_eq_or_tail hf) h.fifoBound) (.inl rfl) rfl

theorem Effect.inv {i : Instr} {s t : State} (he : Effect s i t) (h : s.Inv) : t.Inv := by
  cases he with
  | holds => exact h.quiet
  | answers _ hp => exact h.quiet.respondStatus hp
  | beginsPoll hp hs => exact h.quiet.beginPoll hp hs rfl
  | emits hp hs => exact h.quiet.emit hp hs rfl
  | failsRead _ hp a d hf => exact (h.afterRead d _ hf).raiseTransportError (h.busyAccumulates hp)
  | readsLevelZero hp =>
    have hs : s.st = .acc := h.busyAccumulates (by simp [hp])
    exact (h.afterRead s.draws _ (.inl rfl)).endCommand (.inr (by show Response.none = s.st.response; rw [hs]; rfl))
  | beginsBatch hp hn =>
    exact (h.afterRead s.draws (some ⟨0xC8, .data (BitVec.ofNat 8 s.bridge.fifo.length)⟩) (.inl rfl)).drain
      (h.busyAccumulates (by simp [hp])) rfl hn
  | overflows hp hl => exact h.quiet.raiseOverflow (h.busyAccumulates (by simp [hp])) hl
  | appends hp hl _ _ hf => exact (h.afterRead _ _ hf).afterAppend (h.busyAccumulates (by simp [hp])) hl hp rfl _
  | pushes b => exact h.of_same rfl rfl rfl rfl rfl rfl (push_length b h.fifoBound).2 (.inr rfl) rfl
  | resets d hf =>
    exact { (h.afterRead d none hf).emptied rfl with
      busyAccumulates := fun _ => rfl
      remOutsideDrain := fun _ => rfl
      remInDrain := fun hd => by cases hd
      responseIdle := fun hne => absurd rfl hne }
  | @transacts i hi c d x hf =>
    have hle : c.fifo.length ≤ s.bridge.fifo.length := by obtain h | h | h := hf <;> simp [h]
    exact h.of_same rfl rfl rfl rfl rfl rfl (Nat.le_trans hle h.fifoBound) (.inr rfl) rfl

/-- Every step keeps the invariant (R33 to R36, R173). -/
theorem State.Inv.step {s t : State} (h : s.Inv) (hstep : step s = .next t) : t.Inv := by
  obtain ⟨-, rfl⟩ | ⟨w, i, -, -, he⟩ := step_next_cases hstep
  · exact h.takeTurn.quiet
  · exact (exec_effect he).inv h.takeTurn

theorem State.Inv.withTurn {s : State} (h : s.Inv) (t : Turn) : (s.withTurn t).Inv := { h with }

theorem reset_inv : State.reset.Inv where
  params := by decide
  lenBound := by decide
  bufCanonical := reset_buf_wf
  bufInside := fun _ hc => by cases hc
  bufFilled := fun _ hi => absurd hi (Nat.not_lt_zero _)
  accNoTerminator := fun _ _ _ hi => absurd hi (Nat.not_lt_zero _)
  cmpTerminated := fun hc => by cases hc
  ovfFull := fun ho => by cases ho
  busyAccumulates := fun _ => rfl
  remOutsideDrain := fun _ => rfl
  remInDrain := fun hd => by cases hd
  fifoBound := Nat.zero_le _
  responseIdle := fun hne => absurd rfl hne
  responseCode := fun _ hr => by cases hr
  emissionSentence := fun _ hl => by cases hl

end Sys2Proof.Machine

open Sys2Proof Sys2Proof.Machine

/-- Settles O38: nothing is stored and no batch is under way. -/
theorem invariantHoldsAtReset : Obligations.InvariantHoldsAtReset :=
  ⟨reset_inv, fun hd => by cases hd⟩

/-- Settles O39: taking the turn keeps the invariant, and so does every operation it can run. -/
theorem everyStepKeepsTheInvariant : Obligations.EveryStepKeepsTheInvariant :=
  fun _ _ h hstep => h.step hstep

end

section
/-! PROOFS. Which operation a turn carries (30_encoding.md R103), the single-consumer count (20_memory.md R63), and the byte ledger of
10_state.md R37. -/

namespace Sys2Proof.Machine

/-! ### The operation of a turn -/

theorem hostCommand_decodeCommand : ∀ c : Code, HostCommand (decodeCommand c) := by decide

theorem foreignAccess_of_decodeBus {l : List Byte} {i : Instr} (h : decodeBus l = .ok i) : ForeignAccess i := by
  unfold decodeBus at h
  split at h
  · cases h
  · split at h
    · split at h <;> cases h
      · unfold decodeRead
        split
        · exact .inl rfl
        · split
          · exact .inr (.inl rfl)
          · exact .inr (.inr (.inl ⟨_, rfl⟩))
      · exact .inr (.inr (.inr ⟨_, _, rfl⟩))
    · cases h

/-- Each kind of encoded form decodes to its own operations (R103). -/
theorem decode_cases {w : Wire} {i : Instr} (h : decode w = .ok i) :
    ((∃ c, w = .cmd c) ∧ HostCommand i) ∨ ((∃ l, w = .bus l) ∧ ForeignAccess i) ∨ (∃ b, w = .line b ∧ i = .push b) ∨
    (w = .rst ∧ i = .reset) ∨ (w = .micro .query ∧ i = .lvl) ∨ (w = .micro .drain ∧ i = .pull) := by
  cases w with
  | cmd c => cases h; exact .inl ⟨⟨c, rfl⟩, hostCommand_decodeCommand c⟩
  | bus l => exact .inr (.inl ⟨⟨l, rfl⟩, foreignAccess_of_decodeBus h⟩)
  | line b => cases h; exact .inr (.inr (.inl ⟨b, rfl, rfl⟩))
  | rst => cases h; exact .inr (.inr (.inr (.inl ⟨rfl, rfl⟩)))
  | micro p =>
    cases p <;> cases h
    · exact .inr (.inr (.inr (.inr (.inl ⟨rfl, rfl⟩))))
    · exact .inr (.inr (.inr (.inr (.inr ⟨rfl, rfl⟩))))

theorem wireOf_cases {p : Phase} {a : Action} {w : Wire} (h : wireOf p a = some w) :
    a = .wire w ∨ (a = .engine ∧ w = .micro p) := by
  cases a with
  | wire v => cases h; exact .inl rfl
  | engine =>
    obtain ⟨-, h⟩ := (Option.ite_none_left_eq_some (p := p = .idle)).1 h
    cases h
    exact .inr ⟨rfl, rfl⟩

/-- The bytes an operation pushes. -/
def pushedBytes : Instr → List Byte
  | .push b => [b]
  | _ => []

theorem pushedBytes_eq_nil {i : Instr} (hi : ∀ b, i ≠ .push b) : pushedBytes i = [] := by
  cases i with
  | push b => exact absurd rfl (hi b)
  | _ => rfl

theorem ne_push_of_hostCommand {i : Instr} (hi : HostCommand i) (b : Byte) : i ≠ .push b := by
  obtain rfl | rfl | rfl | rfl := hi <;> simp

theorem ne_push_of_foreignAccess {i : Instr} (hi : ForeignAccess i) (b : Byte) : i ≠ .push b := by
  obtain rfl | rfl | ⟨r, rfl⟩ | ⟨r, v, rfl⟩ := hi <;> simp

theorem wire_of_pull {w : Wire} (hd : decode w = .ok .pull) : w = .micro .drain := by
  obtain ⟨-, hc⟩ | ⟨-, hc⟩ | ⟨b, -, hc⟩ | ⟨-, hc⟩ | ⟨-, hc⟩ | ⟨hw, -⟩ := decode_cases hd
  case inr.inr.inr.inr.inr => exact hw
  all_goals simp [HostCommand, ForeignAccess] at hc

section Turn
variable {p : Phase} {a : Action} {w : Wire} {i : Instr} (hw : wireOf p a = some w) (hd : decode w = .ok i)
include hw hd

theorem pushedBy_eq_pushedBytes : pushedBy a = pushedBytes i := by
  obtain rfl | ⟨rfl, rfl⟩ := wireOf_cases hw
  · obtain ⟨⟨c, rfl⟩, hi⟩ | ⟨⟨l, rfl⟩, hi⟩ | ⟨b, rfl, rfl⟩ | ⟨rfl, rfl⟩ | ⟨rfl, rfl⟩ | ⟨rfl, rfl⟩ := decode_cases hd
    · exact (pushedBytes_eq_nil (ne_push_of_hostCommand hi)).symm
    · exact (pushedBytes_eq_nil (ne_push_of_foreignAccess hi)).symm
    all_goals rfl
  · cases p <;> cases hd <;> rfl

theorem isForeign_of_foreignAccess (hi : ForeignAccess i) : isForeign a = true := by
  obtain ⟨-, hc⟩ | ⟨⟨l, rfl⟩, -⟩ | ⟨b, -, rfl⟩ | ⟨-, rfl⟩ | ⟨-, rfl⟩ | ⟨-, rfl⟩ := decode_cases hd
  case inr.inl =>
    obtain rfl | ⟨-, h⟩ := wireOf_cases hw
    · rfl
    · cases h
  case inl => obtain rfl | rfl | rfl | rfl := hc <;> simp [ForeignAccess] at hi
  all_goals simp [ForeignAccess] at hi

theorem action_of_reset (hi : i = .reset) : a = .wire .rst := by
  subst hi
  obtain ⟨-, hc⟩ | ⟨-, hc⟩ | ⟨b, -, hc⟩ | ⟨rfl, -⟩ | ⟨-, hc⟩ | ⟨-, hc⟩ := decode_cases hd
  case inr.inr.inr.inl =>
    obtain rfl | ⟨-, h⟩ := wireOf_cases hw
    · rfl
    · cases h
  all_goals simp [HostCommand, ForeignAccess] at hc

end Turn

/-- `step_next_cases` for a turn put in front of the schedule. -/
theorem step_withTurn_cases {s s' : State} {t : Turn} (h : step (s.withTurn t) = .next s') :
    (wireOf s.phase t.action = none ∧ s' = (s.meeting t.outcome).quiet) ∨
    (∃ w i, wireOf s.phase t.action = some w ∧ decode w = .ok i ∧ Effect (s.meeting t.outcome) i s') :=
  (step_next_cases h).imp_right fun ⟨w, i, hw, hd, he⟩ => ⟨w, i, hw, hd, exec_effect he⟩

/-! ### The single-consumer count (R63) -/

/-- One pop and one append take one byte from each side of the count. -/
theorem counted_afterAppend {s : State} (h : s.Inv) (hn : s.Counted) (hp : s.phase = .drain) (b : Byte) {f : List Byte}
    (d : Nat) (hf : f = s.bridge.fifo ∨ f = s.bridge.fifo.tail) : (afterAppend (appendByte b (popped s b f d))).Counted := by
  intro hd
  obtain ⟨-, he⟩ | ⟨-, -, he⟩ | ⟨-, -, he⟩ := afterAppend_cases (appendByte b (popped s b f d)) <;> rw [he] at hd ⊢
  · cases hd
  · cases hd
  · show (s.rem - 1).toNat ≤ f.length
    have hle : s.rem.toNat ≤ s.bridge.fifo.length := hn hp
    have hrem : s.rem ≠ 0 := h.remInDrain hp
    have hlen : s.bridge.fifo.length ≤ f.length + 1 := by
      obtain rfl | rfl := hf
      · omega
      · rw [List.length_tail]; omega
    bv_omega

theorem Effect.counted {i : Instr} {s t : State} (he : Effect s i t) (h : s.Inv) (hn : s.Counted)
    (hforeign : ForeignAccess i → t.bridge.fifo = s.bridge.fifo) : t.Counted := by
  cases he with
  | holds => exact hn
  | answers => exact hn
  | beginsPoll => exact fun hd => by cases hd
  | emits => exact hn
  | failsRead => exact fun hd => by cases hd
  | readsLevelZero => exact fun hd => by cases hd
  | beginsBatch => exact fun _ => by rw [BitVec.toNat_ofNat]; exact Nat.mod_le _ _
  | overflows => exact fun hd => by cases hd
  | appends hp _ _ _ hf => exact counted_afterAppend h hn hp _ _ hf
  | pushes b => exact fun hd => Nat.le_trans (hn hd) (push_length b h.fifoBound).1
  | resets => exact fun hd => by cases hd
  | transacts hi => exact fun hd => by rw [hforeign hi]; exact hn hd

/-- The count is kept while software outside the block leaves the FIFO as it is (R63). -/
theorem State.Counted.step {s t : State} (hn : s.Counted) (h : s.Inv) (hstep : step s = .next t)
    (hforeign : isForeign s.nextTurn.action = true → t.bridge.fifo = s.bridge.fifo) : t.Counted := by
  have htake : s.takeTurn.Counted ∧ s.takeTurn.bridge = s.bridge := by
    obtain ⟨_, _, ht⟩ := takeTurn_frame s
    rw [ht]; exact ⟨hn, rfl⟩
  obtain ⟨-, rfl⟩ | ⟨w, i, hw, hd, he⟩ := step_next_cases hstep
  · exact htake.1
  · refine (exec_effect he).counted h.takeTurn htake.1 fun hi => ?_
    rw [htake.2]; exact hforeign (isForeign_of_foreignAccess hw hd hi)

/-! ### The byte ledger (R37) -/

theorem State.Inv.sentence_eq {s t : State} (h : s.Inv) (hlen : t.len = s.len) (hbuf : t.buf = s.buf) :
    t.sentence = s.sentence :=
  sentence_congr hlen fun i hi => byteAt_congr (by rw [hbuf]) (h.bufFilled i hi)

theorem State.Inv.held_eq {s t : State} (h : s.Inv) (hlen : t.len = s.len) (hbuf : t.buf = s.buf)
    (hfifo : t.bridge.fifo = s.bridge.fifo) : t.held = s.held := by
  rw [State.held, State.held, h.sentence_eq hlen hbuf, hfifo]

/-- A pop that the count allows takes the FIFO's head (R63, R226). -/
theorem fifo_eq_cons_of_pop {s : State} {b : Byte} {f : List Byte} {d : Nat} (h : s.Inv) (hn : s.Counted)
    (hp : s.phase = .drain) (hv : s.bridge.latchAccess = false) (hack : s.busOutcome = .ack)
    (hpop : s.quiet.fifoPop = (.ok b, popped s b f d)) : s.bridge.fifo = b :: f := by
  have hle : s.rem.toNat ≤ s.bridge.fifo.length := hn hp
  have hrem : s.rem ≠ 0 := h.remInDrain hp
  cases hfifo : s.bridge.fifo with
  | nil => rw [hfifo, List.length_nil] at hle; bv_omega
  | cons c rest =>
    have hcons := fifoPop_ack_cons (s := s.quiet) (by simpa using hack) hv hfifo
    obtain ⟨hb, hs⟩ := Prod.mk.inj (hpop.symm.trans hcons)
    have hf : f = rest := congrArg (fun t => t.bridge.fifo) hs
    cases hb
    rw [hf]

theorem held_afterAppend {s : State} (h : s.Inv) {b : Byte} {f : List Byte} (d : Nat) (hfifo : s.bridge.fifo = b :: f) :
    (afterAppend (appendByte b (popped s b f d))).held = s.held := by
  have hpopped : (popped s b f d).sentence = s.sentence := h.sentence_eq rfl rfl
  have happend : (afterAppend (appendByte b (popped s b f d))).sentence = s.sentence ++ [b] := by
    rw [← hpopped, ← sentence_appendByte]
    exact sentence_congr (by simp) fun i _ => by simp [State.byteAt]
  rw [State.held, State.held, happend, hfifo]
  simp

theorem held_push {s : State} (h : s.Inv) (b : Byte) (hroom : s.bridge.fifo.length < Config.fifoDepth) :
    ({ s.offClock with bridge := s.bridge.push b } : State).held = s.held ++ [b] := by
  have hfifo : (s.bridge.push b).fifo = s.bridge.fifo ++ [b] := by rw [Bridge.push, if_pos hroom]
  rw [State.held, State.held, hfifo, List.append_assoc]
  exact congrArg (· ++ _) (h.sentence_eq rfl rfl)

theorem ledger_of_same {i : Instr} {s t : State} (h : s.Inv) (hi : ∀ b, i ≠ .push b) (hlen : t.len = s.len)
    (hbuf : t.buf = s.buf) (hfifo : t.bridge.fifo = s.bridge.fifo) (hem : t.emission = none) :
    s.held ++ pushedBytes i = t.emission.getD [] ++ t.held := by
  rw [pushedBytes_eq_nil hi, hem, h.held_eq hlen hbuf hfifo]
  simp

/-- Byte conservation of one operation under the premises of R37. -/
theorem Effect.ledger {i : Instr} {s t : State} (he : Effect s i t) (h : s.Inv) (hn : s.Counted)
    (herr : ∀ a, t.bus ≠ some ⟨a, .failed⟩) (hdrop : pushedBytes i ≠ [] → s.bridge.fifo.length < Config.fifoDepth)
    (hforeign : ForeignAccess i → t.bridge.fifo = s.bridge.fifo) (hreset : i ≠ .reset)
    (hview : i = .pull → s.bridge.latchAccess = false) : s.held ++ pushedBytes i = t.emission.getD [] ++ t.held := by
  cases he with
  | holds hi => exact ledger_of_same h (by rintro b rfl; simp [HostCommand] at hi) rfl rfl rfl rfl
  | answers hi => exact ledger_of_same h (ne_push_of_hostCommand hi) rfl rfl rfl rfl
  | beginsPoll => exact ledger_of_same h (by simp) rfl rfl rfl rfl
  | emits => simp [State.held, State.sentence, pushedBytes]
  | failsRead _ _ a => exact absurd rfl (herr a)
  | readsLevelZero => exact ledger_of_same h (by simp) rfl rfl rfl rfl
  | beginsBatch => exact ledger_of_same h (by simp) rfl rfl rfl rfl
  | overflows => exact ledger_of_same h (by simp) rfl rfl rfl rfl
  | appends hp _ hack hpop =>
    have hfifo := fifo_eq_cons_of_pop h hn hp (hview rfl) hack hpop
    rw [held_afterAppend h _ hfifo]
    simp [pushedBytes]
  | pushes b =>
    exact (held_push h b (hdrop (by simp [pushedBytes]))).symm
  | resets => exact absurd rfl hreset
  | transacts hi => exact ledger_of_same h (ne_push_of_foreignAccess hi) rfl rfl (hforeign hi) rfl

/-- The ledger of one clean turn. -/
theorem CleanTurn.ledger {s s' : State} {t : Turn} (hc : CleanTurn s t s') (h : s.Inv) (hn : s.Counted)
    (hstep : step (s.withTurn t) = .next s') : s.held ++ pushedBy t.action = s'.emission.getD [] ++ s'.held := by
  obtain ⟨herr, hdrop, hforeign, hreset, hview⟩ := hc
  obtain ⟨hw, rfl⟩ | ⟨w, i, hw, hd, he⟩ := step_withTurn_cases hstep
  · have hnone : pushedBy t.action = [] := by
      cases ha : t.action with
      | engine => rfl
      | wire w => rw [ha] at hw; cases hw
    rw [hnone, h.held_eq (t := (s.meeting t.outcome).quiet) rfl rfl rfl]
    simp
  · rw [pushedBy_eq_pushedBytes hw hd] at hdrop ⊢
    exact he.ledger (s := s.meeting t.outcome) { h with } hn herr hdrop
      (fun hi => hforeign (isForeign_of_foreignAccess hw hd hi))
      (fun hi => hreset (action_of_reset hw hd hi))
      (by rintro rfl; exact hview (by rw [hw, wire_of_pull hd]))

/-- Along a run of clean turns the invariant, the count and the ledger hold together. -/
theorem Delivers.ledger {s0 s : State} {p e : List Byte} (h0 : s0.Inv) (hn0 : s0.Counted) (hrun : Delivers s0 p e s) :
    s.Inv ∧ s.Counted ∧ s0.held ++ p = e ++ s.held := by
  induction hrun with
  | start => exact ⟨h0, hn0, by simp⟩
  | @turn p e s s' t _ hstep hclean ih =>
    obtain ⟨h, hn, heq⟩ := ih
    refine ⟨(h.withTurn t).step hstep, State.Counted.step (s := s.withTurn t) hn (h.withTurn t) hstep hclean.noForeignPop, ?_⟩
    calc s0.held ++ (p ++ pushedBy t.action)
        = e ++ (s.held ++ pushedBy t.action) := by rw [← List.append_assoc, heq, List.append_assoc]
      _ = e ++ s'.emission.getD [] ++ s'.held := by rw [hclean.ledger h hn hstep, List.append_assoc]

end Sys2Proof.Machine

open Sys2Proof Sys2Proof.Machine

/-- Settles O43, by induction over the run: each clean turn moves bytes from FIFO to buffer to emission without losing one. -/
theorem bytesAreConserved : Obligations.BytesAreConserved :=
  fun _ _ _ _ h0 hn0 hrun => (hrun.ledger h0 hn0).2.2

end

section
/-! PROOFS. The ports: the sentence read port (10_state.md R43) and the FIFO port's handshake at a clock edge (R42, R217, R236). -/

namespace Sys2Proof.Machine

/-! ### The sentence read port (R43, R87) -/

theorem rdData_of_lt {s : State} (h : s.Inv) {i : Nat} (hi : i < s.len) (k : Nat) :
    s.rdData (BitVec.ofNat s.params.idxw i) k = s.byteAt i := by
  have hidx : i < 2 ^ s.params.idxw :=
    Nat.lt_of_lt_of_le (Nat.lt_of_lt_of_le hi h.lenBound) (maxlen_le_two_pow_idxw s.params h.params)
  rw [State.rdData, BitVec.toNat_ofNat, Nat.mod_eq_of_lt hidx, if_pos hi]

theorem rdData_of_le (s : State) {i : BitVec s.params.idxw} (hi : s.len ≤ i.toNat) (k : Nat) :
    s.rdData i k = Config.undefinedCell k i.toNat := if_neg (Nat.not_lt.2 hi)

/-- The port read at 0 to len - 1 gives the sentence. -/
theorem map_rdData_range {s : State} (h : s.Inv) (k : Nat) :
    (List.range s.len).map (fun i => s.rdData (BitVec.ofNat s.params.idxw i) k) = s.sentence :=
  List.map_congr_left fun _ hi => rdData_of_lt h (List.mem_range.1 hi) k

/-- TAKE from IDLE in CMP emits the sentence (R141). -/
theorem exec_take_emits {s : State} (hp : s.phase = .idle) (hc : s.st = .cmp) :
    ∃ t, exec .take s = .next t ∧ t.emission = some s.sentence := by
  obtain ⟨-, h⟩ | ⟨hne, -⟩ := takeStep_cases s.quiet
  · refine ⟨_, exec_hostCommand (.inr (.inr (.inl rfl))) s, ?_⟩
    rw [accept_idle _ hp, commandStep, h]
    rfl
  · exact absurd hc hne

theorem rdPort_latency_one {before now : State} (i : BitVec before.params.idxw) (j : BitVec now.params.idxw) (k : Nat)
    (h : now.params.rdLatency = 1) : rdPort before now i j k =
      if i.toNat < before.len ∧ i.toNat < now.len then before.byteAt i.toNat else Config.undefinedCell k i.toNat := by
  rw [rdPort, if_neg (by rw [h]; decide), State.rdData]
  by_cases hnow : i.toNat < now.len
  · simp only [hnow, and_true, if_true]
  · simp only [hnow, and_false, if_false]

/-! ### The turn at a clock edge (R39, R41) -/

theorem cmdReady_iff (rst : Bool) (s : State) : cmdReady rst s = true ↔ s.phase = .idle ∧ rst = false := by
  simp [cmdReady]

/-- At a clock edge reset comes first, then an offered command when the engine is idle, then the engine (R39, R196). -/
theorem turnAtEdge_cases (s : PortState) (p : Pins s.core.params) :
    (p.rst = true ∧ turnAtEdge s p = ⟨.wire .rst, resetOutcome s p⟩) ∨
    (p.rst = false ∧ s.core.phase = .idle ∧ turnAtEdge s p = ⟨.wire (.cmd p.cmd), readOutcome s p⟩) ∨
    (p.rst = false ∧ turnAtEdge s p = ⟨.engine, readOutcome s p⟩) := by
  unfold turnAtEdge
  cases hr : p.rst
  case true => exact .inl ⟨rfl, rfl⟩
  case false =>
    right
    rw [if_neg Bool.false_ne_true]
    split
    next hc =>
      rw [Bool.and_eq_true, cmdReady_iff] at hc
      exact .inl ⟨rfl, hc.2.1, rfl⟩
    next => exact .inr ⟨rfl, rfl⟩

/-- A busy engine takes the edge itself (R41). -/
theorem turnAtEdge_of_busy {s : PortState} {p : Pins s.core.params} (hr : p.rst = false) (hb : s.core.phase ≠ .idle) :
    turnAtEdge s p = ⟨.engine, readOutcome s p⟩ := by
  obtain ⟨hr', -⟩ | ⟨-, hp, -⟩ | ⟨-, h⟩ := turnAtEdge_cases s p
  · rw [hr] at hr'; cases hr'
  · exact absurd hp hb
  · exact h

theorem turnAtEdge_of_rst {s : PortState} {p : Pins s.core.params} (hr : p.rst = true) :
    turnAtEdge s p = ⟨.wire .rst, resetOutcome s p⟩ := if_pos hr

/-- Before the request is raised, and at an edge without f_ack, no read is answered (R42, R236). -/
theorem readOutcome_of_no_ack {s : PortState} {p : Pins s.core.params} (h : (s.fReq && p.fAck) = false) :
    readOutcome s p = .noAck := by
  unfold readOutcome Pins.outcome
  cases hf : s.fReq
  · rfl
  · rw [hf, Bool.true_and] at h
    rw [h]
    rfl

theorem withRequest_eq_next {f : Bool} {o : Host.Outcome State Fault Refusal} {t : PortState}
    (h : withRequest f o = .next t) : o = .next t.core ∧ t.fReq = f := by
  cases o <;> cases h
  exact ⟨rfl, rfl⟩

/-! ### The engine's turn (R113, R115, R236) -/

theorem step_engine_idle {s : State} (o : BusOutcome) (hp : s.phase = .idle) :
    step (s.withTurn ⟨.engine, o⟩) = .next (s.meeting o).quiet :=
  step_withTurn_of_wireOf_none (wireOf_engine_idle hp)

theorem step_engine_query {s : State} (o : BusOutcome) (hp : s.phase = .query) :
    step (s.withTurn ⟨.engine, o⟩) = .next (lvlReply (s.meeting o).quiet.fifoLevel) :=
  (step_withTurn_of_decode (i := .lvl) (wireOf_engine_query hp) rfl).trans (if_pos hp)

theorem execPull_full {s : State} (hp : s.phase = .drain) (hl : s.len = s.params.maxlen) :
    execPull s = .next s.quiet.raiseOverflow := by
  rw [execPull, if_pos hp, if_pos hl]

theorem execPull_pop {s : State} (hp : s.phase = .drain) (hl : s.len ≠ s.params.maxlen) :
    execPull s = pullReply s.quiet.fifoPop := by
  rw [execPull, if_pos hp, if_neg hl]

theorem step_engine_full {s : State} (o : BusOutcome) (hp : s.phase = .drain) (hl : s.len = s.params.maxlen) :
    step (s.withTurn ⟨.engine, o⟩) = .next (s.meeting o).quiet.raiseOverflow :=
  (step_withTurn_of_decode (i := .pull) (wireOf_engine_drain hp) rfl).trans (execPull_full (s := s.meeting o) hp hl)

theorem step_engine_pop {s : State} (o : BusOutcome) (hp : s.phase = .drain) (hl : s.len ≠ s.params.maxlen) :
    step (s.withTurn ⟨.engine, o⟩) = pullReply (s.meeting o).quiet.fifoPop :=
  (step_withTurn_of_decode (i := .pull) (wireOf_engine_drain hp) rfl).trans (execPull_pop (s := s.meeting o) hp hl)

theorem popOutstanding_iff (s : State) : s.popOutstanding = true ↔ s.phase = .drain ∧ s.len ≠ s.params.maxlen := by
  simp [State.popOutstanding]

theorem readDue_iff (s : State) :
    readDue s = true ↔ s.phase = .query ∨ (s.phase = .drain ∧ s.len ≠ s.params.maxlen) := by
  simp [readDue, State.popOutstanding]

/-- A read that is due and not answered holds the engine where it is (R236). -/
theorem step_engine_waits {s : State} (hdue : readDue s = true) :
    step (s.withTurn ⟨.engine, .noAck⟩) = .next (s.meeting .noAck).quiet := by
  obtain hp | ⟨hp, hl⟩ := (readDue_iff s).1 hdue
  · rw [step_engine_query _ hp, fifoLevel_noAck rfl]; rfl
  · rw [step_engine_pop _ hp hl, fifoPop_noAck rfl]; rfl

/-- Nothing completes in an engine turn without an answer (R236). -/
theorem step_engine_noAck_bus {s t : State} (h : step (s.withTurn ⟨.engine, .noAck⟩) = .next t) : t.bus = none := by
  by_cases hdue : readDue s = true
  · cases h.symm.trans (step_engine_waits hdue); rfl
  · rw [readDue_iff, not_or, not_and, not_not] at hdue
    obtain ⟨hquery, hfull⟩ := hdue
    cases hp : s.phase with
    | idle => cases h.symm.trans (step_engine_idle _ hp); rfl
    | query => exact absurd hp hquery
    | drain => cases h.symm.trans (step_engine_full _ hp (hfull hp)); rfl

/-- No host command touches the bridge chip or uses the bus (R141 to R145). -/
theorem accept_commandStep_frame {i : Instr} (hi : HostCommand i) (s : State) :
    (s.accept (commandStep i)).bridge = s.bridge ∧ (s.accept (commandStep i)).bus = none := by
  by_cases hp : s.phase = .idle
  · rw [accept_idle _ hp]
    obtain rfl | rfl | rfl | rfl := hi
    · exact ⟨rfl, rfl⟩
    · obtain ⟨-, h⟩ | ⟨-, h⟩ := pollAccept_cases s.quiet <;> rw [commandStep, h] <;> exact ⟨rfl, rfl⟩
    · obtain ⟨-, h⟩ | ⟨-, h⟩ := takeStep_cases s.quiet <;> rw [commandStep, h] <;> exact ⟨rfl, rfl⟩
    · exact ⟨rfl, rfl⟩
  · rw [accept_busy _ hp]
    exact ⟨rfl, rfl⟩

/-- At an edge whose read is due and not answered, the LFE waits. -/
theorem step_edge_waits {s : PortState} {p : Pins s.core.params} (hr : p.rst = false) (hdue : readDue s.core = true)
    (hack : (s.fReq && p.fAck) = false) :
    step (s.core.withTurn (turnAtEdge s p)) = .next (s.core.meeting .noAck).quiet := by
  have hbusy : s.core.phase ≠ .idle := by obtain hp | ⟨hp, -⟩ := (readDue_iff _).1 hdue <;> simp [hp]
  rw [turnAtEdge_of_busy hr hbusy, readOutcome_of_no_ack hack, step_engine_waits hdue]

theorem step_command (s : State) (c : Code) (o : BusOutcome) :
    step (s.withTurn ⟨.wire (.cmd c), o⟩) = .next ((s.meeting o).accept (commandStep (decodeCommand c))) :=
  exec_hostCommand (hostCommand_decodeCommand c) (s.meeting o)

/-- No transaction completes before the request is raised (R42). -/
theorem step_edge_bus_of_no_request {s : PortState} {p : Pins s.core.params} {t : State} (hr : p.rst = false)
    (hf : s.fReq = false) (h : step (s.core.withTurn (turnAtEdge s p)) = .next t) : t.bus = none := by
  have ho : readOutcome s p = .noAck := readOutcome_of_no_ack (by rw [hf]; rfl)
  obtain ⟨hr', -⟩ | ⟨-, -, ht⟩ | ⟨-, ht⟩ := turnAtEdge_cases s p
  · rw [hr] at hr'; cases hr'
  · rw [ht, step_command] at h
    cases h
    exact (accept_commandStep_frame (hostCommand_decodeCommand p.cmd) _).2
  · rw [ht, ho] at h
    exact step_engine_noAck_bus h

/-! ### The LFE alone (R42) -/

/-- Two states agree in the LFE's elements, its outputs and the parameters; the bridge chip and the model's own fields may differ. -/
structure LfeAgrees (u t : State) : Prop where
  st : u.st = t.st
  len : u.len = t.len
  buf : u.buf = t.buf
  rem : u.rem = t.rem
  phase : u.phase = t.phase
  rsp : u.rsp = t.rsp
  emission : u.emission = t.emission
  params : u.params = t.params

theorem LfeAgrees.endCommand {u t : State} (h : LfeAgrees u t) (r : Response) :
    LfeAgrees (u.endCommand r) (t.endCommand r) :=
  { h with rem := rfl, phase := rfl, rsp := rfl }

theorem LfeAgrees.lvlReply {u t : State} (h : LfeAgrees u t) (r : ReadReply) :
    LfeAgrees (lvlReply (r, u)) (lvlReply (r, t)) := by
  cases r with
  | waiting => exact h
  | err => exact h.endCommand .xerr
  | ok n =>
    rw [lvlReply_ok, lvlReply_ok]
    by_cases hn : n = 0
    · rw [if_pos hn, if_pos hn]; exact h.endCommand .none
    · rw [if_neg hn, if_neg hn]; exact { h with rem := rfl, phase := rfl }

theorem LfeAgrees.appendByte {u t : State} (h : LfeAgrees u t) (b : Byte) : LfeAgrees (appendByte b u) (appendByte b t) :=
  { h with
    len := congrArg (· + 1) h.len
    buf := by rw [appendByte_buf, appendByte_buf, h.buf, h.len]
    rem := congrArg (· - 1) h.rem }

/-- The match reads stored cells only, so it is the same for both. -/
theorem LfeAgrees.terminated_appendByte {u t : State} (h : LfeAgrees u t) (hi : u.Inv) (b : Byte) :
    (Machine.appendByte b u).terminated = (Machine.appendByte b t).terminated := by
  have hab := h.appendByte b
  rw [State.terminated, State.terminated, ← hab.len]
  exact terminatorMatch_congr fun i hlt => (byteAt_congr (by rw [hab.buf]) (appendByte_filled hi b hlt)).symm

theorem LfeAgrees.afterAppend {u t : State} (h : LfeAgrees u t) (hterm : u.terminated = t.terminated) :
    LfeAgrees (afterAppend u) (afterAppend t) := by
  unfold Machine.afterAppend
  rw [hterm, h.rem]
  split
  · exact { h.endCommand .sent with st := rfl }
  · split
    · exact h.endCommand .none
    · exact h

/-- PULL on one reply, in two states that agree. -/
theorem LfeAgrees.pullReply {u t : State} (h : LfeAgrees u t) (hi : u.Inv) (hl : u.len < u.params.maxlen) (r : ReadReply) :
    ∃ u' t', pullReply (r, u) = .next u' ∧ pullReply (r, t) = .next t' ∧ LfeAgrees u' t' ∧ u'.bridge = u.bridge := by
  cases r with
  | waiting => exact ⟨u, t, rfl, rfl, h, rfl⟩
  | err => exact ⟨_, _, rfl, rfl, h.endCommand .xerr, rfl⟩
  | ok b =>
    have hl' : t.len < t.params.maxlen := by rw [← h.len, ← h.params]; exact hl
    exact ⟨_, _, if_pos hl, if_pos hl', (h.appendByte b).afterAppend (h.terminated_appendByte hi b), by simp⟩

/-- The byte a register read returns depends on the bridge chip and the draw counter only. -/
theorem readRegister_fst_quiet_meeting (s : State) (o : BusOutcome) (reg : BridgeRegister) :
    ((s.meeting o).quiet.readRegister reg).1 = (s.readRegister reg).1 := by
  cases reg with
  | holding =>
    cases hf : s.bridge.fifo with
    | nil => rw [State.readRegister, State.readRegister, popFifo_nil hf, popFifo_nil (s := (s.meeting o).quiet) hf]; rfl
    | cons b rest => rw [State.readRegister, State.readRegister, popFifo_cons hf, popFifo_cons (s := (s.meeting o).quiet) hf]
  | _ => rfl

/-- With the bridge chip's byte on f_data, the reply on the pins is the reply of the machine's read (R42). -/
theorem sampled_eq_memRead (s : PortState) (p : Pins s.core.params) (reg : BridgeRegister) (off : Offset)
    (hdata : p.fData = (s.core.readRegister reg).1) :
    ((s.core.meeting (readOutcome s p)).quiet.memRead reg off).1 = sampled s p := by
  have hbyte : ((s.core.meeting (readOutcome s p)).quiet.readRegister reg).1 = p.fData := by
    rw [hdata, readRegister_fst_quiet_meeting]
  unfold State.memRead sampled
  rw [busOutcome_quiet, State.busOutcome, meeting_outcome, meeting_params, hbyte]
  cases readOutcome s p with
  | ack => rfl
  | err took => cases s.core.params.hasXerr <;> rfl
  | noAck => rfl

/-- A read of the bridge chip leaves the LFE's elements. -/
theorem lfeAgrees_memRead (s : State) (o : BusOutcome) (reg : BridgeRegister) (off : Offset) :
    LfeAgrees s.quiet ((s.meeting o).quiet.memRead reg off).2 := by
  obtain ⟨f, d, x, h, -⟩ := memRead_frame reg off (s.meeting o).quiet
  rw [h]
  exact ⟨rfl, rfl, rfl, rfl, rfl, rfl, rfl, rfl⟩

theorem lvlReply_bridge (r : ReadReply × State) : (lvlReply r).bridge = r.2.bridge := by
  unfold lvlReply
  split
  · rfl
  · rfl
  · split <;> rfl

/-- The engine's turn in the machine and in the LFE alone. -/
theorem engine_agrees {s : PortState} {p : Pins s.core.params} (h : s.core.Inv) (hdata : p.fData = bridgeData s.core) :
    ∃ u t, engineAtPins (sampled s p) s.core = .next u ∧ step (s.core.withTurn ⟨.engine, readOutcome s p⟩) = .next t ∧
      LfeAgrees u t ∧ u.bridge = s.core.bridge := by
  unfold bridgeData at hdata
  unfold engineAtPins
  cases hp : s.core.phase with
  | idle => exact ⟨_, _, rfl, step_engine_idle _ hp, ⟨rfl, rfl, rfl, rfl, rfl, rfl, rfl, rfl⟩, rfl⟩
  | query =>
    rw [if_pos hp] at hdata
    rw [step_engine_query _ hp, ← sampled_eq_memRead s p _ 0x9 hdata]
    exact ⟨_, _, rfl, rfl, (lfeAgrees_memRead _ _ _ _).lvlReply _, lvlReply_bridge _⟩
  | drain =>
    rw [if_neg (by rw [hp]; decide)] at hdata
    dsimp only
    by_cases hl : s.core.len = s.core.params.maxlen
    · rw [if_pos hl, step_engine_full _ hp hl]
      exact ⟨_, _, rfl, rfl, ⟨rfl, rfl, rfl, rfl, rfl, rfl, rfl, rfl⟩, rfl⟩
    · rw [if_neg hl, step_engine_pop _ hp hl, ← sampled_eq_memRead s p _ 0x0 hdata]
      obtain ⟨u, t, hu, ht, hut, hb⟩ := (lfeAgrees_memRead s.core (readOutcome s p) s.core.bridge.registerAtZero 0x0).pullReply
        h.quiet (Nat.lt_of_le_of_ne h.lenBound hl) _
      exact ⟨u, t, hu, ht, hut, hb⟩

/-- A host command reads nothing of the outcome. -/
theorem accept_commandStep_meeting {i : Instr} (hi : HostCommand i) (s : State) (o : BusOutcome) :
    (s.meeting o).accept (commandStep i) = (s.accept (commandStep i)).meeting o := by
  obtain ⟨st, len, buf, rem, phase, bridge, rsp, emission, bus, params, outcome, schedule, draws⟩ := s
  obtain rfl | rfl | rfl | rfl := hi <;> cases phase <;> cases st <;> rfl

/-- The LFE alone does at an edge to its own elements what it does in the machine (R42). -/
theorem lfeTurn_agrees {s : PortState} {p : Pins s.core.params} (h : s.core.Inv) (hdata : p.fData = bridgeData s.core) :
    ∃ u t, lfeTurn s p = .next u ∧ step (s.core.withTurn (turnAtEdge s p)) = .next t ∧
      LfeAgrees u t ∧ u.bridge = s.core.bridge := by
  unfold lfeTurn
  obtain ⟨-, ht⟩ | ⟨-, -, ht⟩ | ⟨-, ht⟩ := turnAtEdge_cases s p <;> rw [ht]
  · obtain ⟨f, d, he, -⟩ := execReset_cases (s.core.meeting (resetOutcome s p))
    exact ⟨_, _, rfl, he, ⟨rfl, rfl, rfl, rfl, rfl, rfl, rfl, rfl⟩, rfl⟩
  · have hc := hostCommand_decodeCommand p.cmd
    have hmeet := accept_commandStep_meeting hc s.core (readOutcome s p)
    exact ⟨_, _, exec_hostCommand hc s.core, (step_command _ _ _).trans (congrArg _ hmeet),
      ⟨rfl, rfl, rfl, rfl, rfl, rfl, rfl, rfl⟩, (accept_commandStep_frame hc s.core).1⟩
  · exact engine_agrees h hdata

/-! ### A reset while a pop is requested (R217, D25) -/

theorem popFifo_fifo (s : State) : s.popFifo.2.bridge.fifo = s.bridge.fifo.tail := by
  cases h : s.bridge.fifo with
  | nil => rw [popFifo_nil h, h]; rfl
  | cons b rest => rw [popFifo_cons h]; rfl

theorem resetOutcome_of_no_ack {s : PortState} {p : Pins s.core.params} (hf : s.fReq = true) (hack : p.fAck = false) :
    resetOutcome s p = if p.took then .ack else .noAck := by
  simp [resetOutcome, hf, hack]

/-- The pop that a reset cuts off takes the FIFO's head or not, as its outcome says. -/
theorem exec_reset_fifo {s : State} (hp : s.phase = .drain) (hl : s.len ≠ s.params.maxlen)
    (hv : s.bridge.latchAccess = false) : ∃ t, exec .reset s = .next t ∧
      t.bridge.fifo = if sideEffect s.busOutcome then s.bridge.fifo.tail else s.bridge.fifo := by
  refine ⟨_, rfl, ?_⟩
  have hz : s.bridge.registerAtZero = .holding := by simp [Bridge.registerAtZero, hv]
  rw [resetWrites_bridge, State.abandonRead, (popOutstanding_iff s).2 ⟨hp, hl⟩, Bool.true_and, hz]
  split
  · exact popFifo_fifo s
  · rfl

end Sys2Proof.Machine

open Sys2Proof Sys2Proof.Machine

/-- Settles O52: below len the port reads the stored cells, which are what TAKE emits. -/
theorem readPortShowsTheSentence : Obligations.ReadPortShowsTheSentence := by
  refine ⟨fun s k h => ⟨map_rdData_range h k, fun hp hc => ?_, fun i hi => rdData_of_le s hi k⟩,
    fun before now i j k => ⟨fun h0 => if_pos h0, rdPort_latency_one i j k⟩⟩
  rw [map_rdData_range h k]
  exact exec_take_emits hp hc

/-- Settles O37: without f_ack on a raised request a due read waits, and the LFE alone meets the same reply as the machine. -/
theorem requestHandshake : Obligations.RequestHandshake := by
  intro s p h
  refine ⟨fun t ht => ?edge, fun hdata => ?alone, fun hr hf hack hp hl hv => ?cutOff⟩
  case edge =>
    obtain ⟨hstep, hreq⟩ := withRequest_eq_next ht
    refine ⟨fun hr => ?_, fun hr hf => ⟨?_, step_edge_bus_of_no_request hr hf hstep⟩, fun hr hf hdue hack => ?_,
      fun hack hf => ?_, fun ht => ?_⟩
    · simp [hreq, nextRequest, hr]
    · simp [hreq, nextRequest, hr, hf]
    · have hwait := hstep.symm.trans (step_edge_waits hr hdue (by rw [hack, Bool.and_false]))
      rw [Host.Outcome.next.inj hwait]
      exact ⟨by simp [hreq, nextRequest, hr, hdue, hack], rfl, rfl⟩
    · simp [hreq, nextRequest, hack, hf]
    · rw [hreq, nextRequest, Bool.and_eq_true, Bool.and_eq_true, Bool.not_eq_true', Bool.not_eq_true'] at ht
      obtain ⟨⟨hr, hdue⟩, hack⟩ := ht
      rw [Host.Outcome.next.inj (hstep.symm.trans (step_edge_waits hr hdue hack))]
      exact hdue
  case alone =>
    obtain ⟨u, t, hu, ht, hag, hb⟩ := lfeTurn_agrees h hdata
    exact ⟨⟨t, nextRequest s p⟩, ⟨u, nextRequest s p⟩, by rw [clockEdge, ht]; rfl, by rw [lfeEdge, hu]; rfl, rfl,
      hag.st, hag.len, hag.buf, hag.rem, hag.phase, hag.rsp, hag.emission, hb⟩
  case cutOff =>
    obtain ⟨t, ht, hfifo⟩ := exec_reset_fifo (s := s.core.meeting (resetOutcome s p)) hp hl hv
    have hstep : step (s.core.withTurn (turnAtEdge s p)) = .next t := by rw [turnAtEdge_of_rst hr]; exact ht
    refine ⟨⟨t, nextRequest s p⟩, by rw [clockEdge, hstep]; rfl, hfifo.trans ?_⟩
    rw [State.busOutcome, meeting_outcome, resetOutcome_of_no_ack hf hack]
    cases p.took <;> rfl

end

section
/-! PROOFS. The memory system's hazards: a PULL in the divisor-latch view (20_memory.md R52, 70_reset_and_hazards.md R230), and the
one operation that can fault (20_memory.md R50, log 27). -/

namespace Sys2Proof.Machine

/-! ### The end of a PULL whose pop returned a byte (R118 to R121) -/

/-- With room in the buffer, the byte popped is appended to the state the pop left (R118). -/
theorem execPull_appends {s t : State} {b : Byte} (hp : s.phase = .drain) (hl : s.len < s.params.maxlen)
    (hpop : s.quiet.fifoPop = (.ok b, t)) (ht : t.len < t.params.maxlen) :
    execPull s = .next (afterAppend (appendByte b t)) := by
  rw [execPull_pop hp (Nat.ne_of_lt hl), hpop]
  exact if_pos ht

/-- `afterAppend_cases` as one term: match, end of batch, continue (R119, R120, R121). -/
theorem afterAppend_eq (a : State) : afterAppend a =
    if terminatorMatch a.byteAt a.len = true then { a with st := .cmp, rem := 0, phase := .idle, rsp := some .sent }
    else if a.rem = 0 then { a with phase := .idle, rsp := some .none }
    else a := by
  obtain ⟨hm, h⟩ | ⟨hm, hr, h⟩ | ⟨hm, hr, h⟩ := afterAppend_cases a <;> rw [State.terminated] at hm <;> rw [h, hm]
  · rw [if_pos rfl]
  · rw [if_neg Bool.false_ne_true, if_pos hr, ← hr]
  · rw [if_neg Bool.false_ne_true, if_neg hr]

/-! ### Faults (R50, log 27) -/

/-- Only a PULL faults, and only with len beyond MAXLEN. -/
theorem exec_eq_fault {i : Instr} {s : State} {f : Fault} (h : exec i s = .fault f) :
    i = .pull ∧ s.params.maxlen < s.len := by
  have hforeign (hi : ForeignAccess i) : i = .pull ∧ s.params.maxlen < s.len := by
    obtain ⟨r, he⟩ | ⟨c, d, x, he, -⟩ := execForeign_cases hi s <;> cases h.symm.trans he
  cases i with
  | nop | poll | take | rsvd | push | reset => cases h
  | rdRxlvl => exact hforeign (.inl rfl)
  | rdRhr => exact hforeign (.inr (.inl rfl))
  | regrd r => exact hforeign (.inr (.inr (.inl ⟨r, rfl⟩)))
  | regwr r v => exact hforeign (.inr (.inr (.inr ⟨r, v, rfl⟩)))
  | lvl =>
    obtain ⟨-, he⟩ | ⟨-, -, he⟩ | ⟨-, -, he⟩ | ⟨-, -, -, he⟩ | ⟨-, -, -, he⟩ := execLvl_cases s <;> cases h.symm.trans he
  | pull =>
    obtain ⟨-, he⟩ | ⟨-, -, he⟩ | ⟨-, -, -, he⟩ | ⟨-, -, _, _, _, -, -, he⟩ |
      ⟨-, -, _, _, _, -, -, -, ⟨-, he⟩ | ⟨hl, -⟩⟩ := execPull_cases s
    case inr.inr.inr.inr.inr => exact ⟨rfl, hl⟩
    all_goals cases h.symm.trans he

/-- A step faults only where the operation of its turn does. -/
theorem exec_of_step_eq_fault {s : State} {f : Fault} (h : step s = .fault f) : ∃ i, exec i s.takeTurn = .fault f := by
  obtain ⟨i, he⟩ | he | ⟨e, he⟩ := step_cases s
  · exact ⟨i, he.symm.trans h⟩
  · cases h.symm.trans he
  · cases h.symm.trans he

end Sys2Proof.Machine

open Sys2Proof Sys2Proof.Machine

/-- Settles O20: the pop returns divisor-latch-low and leaves the bridge chip, and the end of the PULL decides on that byte. -/
theorem pullUnderLatchAccessAppendsDivisorLow : Obligations.PullUnderLatchAccessAppendsDivisorLow := by
  intro s hp hl hack hv a ha
  have hpop := fifoPop_ack_latch (s := s.quiet) hack hv
  have happend : a = appendByte s.bridge.divisorLow { s.quiet with bus := some ⟨0x80, .data s.bridge.divisorLow⟩ } := ha
  rw [← afterAppend_eq, happend]
  exact execPull_appends hp hl hpop hl

/-- Settles O40: a fault would need a PULL with len beyond MAXLEN, which the invariant bounds (R33). -/
theorem noStepFaultsUnderTheInvariant : Obligations.NoStepFaultsUnderTheInvariant := by
  intro s h f hf
  obtain ⟨i, he⟩ := exec_of_step_eq_fault hf
  obtain ⟨-, hl⟩ := exec_eq_fault he
  exact Nat.not_lt.2 h.takeTurn.lenBound hl

/-- Settles O41: no operation but a foreign transaction takes a byte off the FIFO without taking one off rem. -/
theorem levelMonotonicity : Obligations.LevelMonotonicity :=
  fun _ _ h hn hstep hforeign => hn.step h hstep hforeign

end

section
/-! PROOFS. The address byte (30_encoding.md R84, R86), and the decoder as the inverse of the encoder (R81, R103). -/

namespace Sys2Proof

/-! ### The address byte (R84, R86) -/

/-- The decoder's test of the reserved bits, as a mask (R92). -/
theorem lowBitsZero_iff (a : Byte) : lowBitsZero a = true ↔ a &&& 0x07 = 0 := by
  have hmask : (a &&& 0x07).toNat = a.toNat % 2 ^ 3 := by
    rw [BitVec.toNat_and]; exact Nat.and_two_pow_sub_one_eq_mod a.toNat 3
  rw [lowBitsZero, beq_iff_eq, BitVec.toNat_eq, BitVec.toNat_eq, hmask, BitVec.extractLsb'_toNat, Nat.shiftRight_zero]
  rfl

/-- An address byte without reserved bits is built from its own access bit and offset (R86). -/
theorem physicalByte_isRead_offsetOf {a : Byte} (h : lowBitsZero a = true) :
    physicalByte (isRead a) (offsetOf a) = a := by
  revert a; decide

/-- The address bytes are those without reserved bits (R84, R86). -/
theorem lowBitsZero_iff_exists (a : Byte) : lowBitsZero a = true ↔ ∃ read r, a = physicalByte read r := by
  constructor
  · exact fun h => ⟨isRead a, offsetOf a, (physicalByte_isRead_offsetOf h).symm⟩
  · rintro ⟨read, r, rfl⟩
    exact (Laws.Encoding.physicalByte_fields read r).1

/-! ### Decoding what was encoded -/

/-- The decoder reads a well-formed instruction back from its encoding (R103). -/
theorem decode_encode : ∀ i : Instr, Laws.Encoding.Statement i
  | .nop => Laws.Encoding.nop
  | .poll => Laws.Encoding.poll
  | .take => Laws.Encoding.take
  | .rsvd => Laws.Encoding.rsvd
  | .rdRxlvl => Laws.Encoding.rdRxlvl
  | .rdRhr => Laws.Encoding.rdRhr
  | .regrd r => Laws.Encoding.regrd r
  | .regwr r v => Laws.Encoding.regwr r v
  | .lvl => Laws.Encoding.lvl
  | .pull => Laws.Encoding.pull
  | .push b => Laws.Encoding.push b
  | .reset => Laws.Encoding.reset

/-! ### Encoding what was decoded -/

/-- The form `w` is the encoding of the well-formed instruction `i`. -/
abbrev Encodes (w : Wire) (i : Instr) : Prop := i.wellFormed = true ∧ encode i = w

/-- The four command codes (R81). -/
theorem encodes_decodeCommand : ∀ c : Code, Encodes (.cmd c) (decodeCommand c) := by decide

/-- The two fixed rows and the generic row of a read (R103). -/
theorem encodes_decodeRead (r : Offset) : Encodes (.bus [physicalByte true r]) (decodeRead r) := by
  unfold decodeRead
  split
  · subst r; exact ⟨rfl, rfl⟩
  · split
    · subst r; exact ⟨rfl, rfl⟩
    · refine ⟨?_, rfl⟩
      rw [Instr.wellFormed, Bool.and_eq_true, bne_iff_ne, bne_iff_ne]
      exact ⟨‹¬r = 0x0›, ‹¬r = 0x9›⟩

theorem encodes_of_decodeBus {bytes : List Byte} {i : Instr} (h : decodeBus bytes = .ok i) : Encodes (.bus bytes) i := by
  cases bytes with
  | nil => cases h
  | cons a rest =>
    simp only [decodeBus] at h
    split at h
    next hlow =>
      have haddr := physicalByte_isRead_offsetOf hlow
      split at h <;> cases h
      next hread =>
        have hencodes := encodes_decodeRead (offsetOf a)
        rwa [← hread, haddr] at hencodes
      next v hwrite =>
        refine ⟨rfl, ?_⟩
        rw [encode, ← hwrite, haddr]
    next => cases h

/-- A form that decodes is the encoding of what it decodes to (R103). -/
theorem encodes_of_decode {w : Wire} {i : Instr} (h : decode w = .ok i) : Encodes w i := by
  cases w with
  | cmd c => cases h; exact encodes_decodeCommand c
  | bus bytes => exact encodes_of_decodeBus h
  | line b => cases h; exact ⟨rfl, rfl⟩
  | rst => cases h; exact ⟨rfl, rfl⟩
  | micro p => cases p <;> cases h <;> exact ⟨rfl, rfl⟩

/-! ### A turn whose form does not decode -/

/-- Such a turn is refused with the decoder's reason (R92, log 26). -/
theorem Machine.step_withTurn_of_decode_error {s : Machine.State} {t : Turn} {w : Wire} {e : DecodeError}
    (hwire : Machine.wireOf s.phase t.action = some w) (hdec : decode w = .error e) :
    Machine.step (s.withTurn t) = .refused (.undecodable e) := by
  rw [Machine.step, Machine.withTurn_phase, Machine.nextTurn_withTurn, hwire]
  simp only [Machine.runWire, hdec]

end Sys2Proof

open Sys2Proof Sys2Proof.Machine

/-- Settles O1: each form that decodes is the encoding of what it decodes to, and each instruction's encoding decodes to it. -/
theorem decodeAndEncodeAgree : Obligations.DecodeAndEncodeAgree := by
  intro w i
  refine ⟨encodes_of_decode, ?_⟩
  rintro ⟨hwf, rfl⟩
  exact decode_encode i hwf

/-- Settles O2: the access bit and the offset read back from an address byte determine it. -/
theorem addressByteDecodesToOffsetAndAccess : Obligations.AddressByteDecodesToOffsetAndAccess := by
  have hfields (read : Bool) (r : Offset) : isRead (physicalByte read r) = read ∧ offsetOf (physicalByte read r) = r :=
    (Laws.Encoding.physicalByte_fields read r).2
  refine ⟨by decide, fun read read' r r' h => ?injective, fun a => ?image, hfields⟩
  case injective =>
    obtain ⟨hread, hoff⟩ := hfields read r
    rw [h] at hread hoff
    exact ⟨hread.symm.trans (hfields read' r').1, hoff.symm.trans (hfields read' r').2⟩
  case image => exact (lowBitsZero_iff a).symm.trans (lowBitsZero_iff_exists a)

/-- Settles O3: each word is the encoding of the operation named. -/
theorem wordsOfTheTableDecode : Obligations.WordsOfTheTableDecode :=
  ⟨decode_encode .poll rfl, decode_encode .take rfl, decode_encode .rdRxlvl rfl, decode_encode .rdRhr rfl,
    decode_encode (.regrd 0x3) rfl, decode_encode (.regwr 0x3 0x5A) rfl, decode_encode (.push 0x41) rfl⟩

/-- Settles O4: an outside agent's turn carries its own form, which the decoder refuses for its first byte. -/
theorem reservedAddressByteIsRefused : Obligations.ReservedAddressByteIsRefused := by
  intro s a rest o ha
  have hdec : decode (.bus (a :: rest)) = .error (.reservedLowBits a) :=
    if_neg (mt (lowBitsZero_iff a).1 ha)
  exact step_withTurn_of_decode_error rfl hdec

end

section
/-! PROOFS. ACQUIRE among any moves (30_encoding.md R101): what each of its endings says, from the invariant alone. -/

namespace Sys2Proof.Machine

/-! ### A move of the LFE -/

/-- The operation of the LFE's own move inside ACQUIRE's loop (R101, R110). -/
def pollingInstr : Phase → Instr
  | .idle => .poll
  | .query => .lvl
  | .drain => .pull

theorem pollingMove_eq_exec (s : State) : pollingMove s = exec (pollingInstr s.phase) s := by
  unfold pollingMove
  cases s.phase <;> rfl

/-- Only a transaction of software outside the block is refused (R92, U13). -/
theorem foreignAccess_of_exec_eq_refused {i : Instr} {s : State} {r : Refusal} (h : exec i s = .refused r) : ForeignAccess i := by
  cases i with
  | rdRxlvl => exact .inl rfl
  | rdRhr => exact .inr (.inl rfl)
  | regrd r => exact .inr (.inr (.inl ⟨r, rfl⟩))
  | regwr r v => exact .inr (.inr (.inr ⟨r, v, rfl⟩))
  | nop | poll | take | rsvd | push | reset => cases h
  | lvl =>
    obtain ⟨-, he⟩ | ⟨-, -, he⟩ | ⟨-, -, he⟩ | ⟨-, -, -, he⟩ | ⟨-, -, -, he⟩ := execLvl_cases s <;> cases h.symm.trans he
  | pull =>
    obtain ⟨-, he⟩ | ⟨-, -, he⟩ | ⟨-, -, -, he⟩ | ⟨-, -, _, _, _, -, -, he⟩ |
      ⟨-, -, _, _, _, -, -, -, ⟨-, he⟩ | ⟨-, he⟩⟩ := execPull_cases s <;> cases h.symm.trans he

theorem not_foreignAccess_pollingInstr (p : Phase) : ¬ForeignAccess (pollingInstr p) := by
  cases p <;> simp [pollingInstr, ForeignAccess]

theorem pollingMove_effect {s t : State} (h : pollingMove s = .next t) : Effect s (pollingInstr s.phase) t :=
  exec_effect ((pollingMove_eq_exec s).symm.trans h)

/-- A read that is due and fails ends the command, and may have taken the FIFO's head (R113, R117). -/
theorem pollingMove_readFails {s : State} {took : Bool} (hdue : readDue s = true) (ho : s.busOutcome = .err took) :
    ∃ b d x, pollingMove s = .next { s.quiet with bridge := b, draws := d, bus := x }.raiseTransportError := by
  obtain hp | ⟨hp, hl⟩ := (readDue_iff s).1 hdue
  · exact ⟨_, _, _, by rw [pollingMove_query hp, execLvl, if_pos hp, fifoLevel_err (took := took) (by simpa using ho)]; rfl⟩
  · obtain ⟨f, d, hpop, -⟩ := fifoPop_err (s := s.quiet) (took := took) (by simpa using ho)
    exact ⟨_, _, _, by rw [pollingMove_drain hp, execPull_pop hp hl, hpop]; rfl⟩

theorem State.Inv.meeting {s : State} (h : s.Inv) (o : BusOutcome) : (s.meeting o).Inv := { h with }

/-- Under the invariant the LFE can always move, and keeps the invariant and the parameters (R33, R50). -/
theorem State.Inv.pollingMove_next {s : State} (h : s.Inv) (o : BusOutcome) :
    ∃ t, pollingMove (s.meeting o) = .next t ∧ t.Inv ∧ t.params = s.params := by
  cases hm : pollingMove (s.meeting o) with
  | next t => exact ⟨t, rfl, (pollingMove_effect hm).inv (h.meeting o), (pollingMove_effect hm).params⟩
  | fault f =>
    obtain ⟨-, hl⟩ := exec_eq_fault ((pollingMove_eq_exec _).symm.trans hm)
    exact absurd h.lenBound (Nat.not_le.2 hl)
  | refused r =>
    exact absurd (foreignAccess_of_exec_eq_refused ((pollingMove_eq_exec _).symm.trans hm)) (not_foreignAccess_pollingInstr _)

theorem State.Inv.execPush {s t : State} {b : Byte} (h : s.Inv) (he : execPush b s = .next t) : t.Inv :=
  (exec_effect (i := .push b) he).inv h

/-- TAKE in CMP, its whole next state (R141). -/
theorem execTake_cmp {s : State} (hp : s.phase = .idle) (hc : s.st = .cmp) :
    execTake s = .next ({ s.quiet with emission := some s.sentence, len := 0, st := .acc }.respond .none) := by
  obtain ⟨-, h⟩ | ⟨hne, -⟩ := takeStep_cases s.quiet
  · rw [execTake, accept_idle _ hp, h]; rfl
  · exact absurd hc hne

/-- ACQUIRE's TAKE in CMP returns the sentence held (R101, R141). -/
theorem acquireTake_lfe (o : BusOutcome) (more : List Move) {s : State} (hp : s.phase = .idle) (hc : s.st = .cmp) :
    ∃ t, acquireTake (.lfe o :: more) s = .sentence s.sentence t ∧
      t.st = .acc ∧ t.len = 0 ∧ t.phase = .idle ∧ t.bridge = s.bridge ∧ t.rsp = some .none := by
  refine ⟨{ (s.meeting o).quiet with emission := some s.sentence, len := 0, st := .acc }.respond .none,
    ?_, rfl, rfl, hp, rfl, rfl⟩
  rw [acquireTake, execTake_cmp (s := s.meeting o) hp hc]
  rfl

/-! ### What a response says of the state (R82) -/

theorem State.Inv.rsp_eq_code {s : State} (h : s.Inv) {r : Response} (hr : s.rsp = some r) (hx : r ≠ .xerr) :
    r = s.st.response :=
  (h.responseCode r hr).resolve_left fun hc => hx hc.1

theorem State.Inv.st_eq_cmp_of_rsp_sent {s : State} (h : s.Inv) (hr : s.rsp = some .sent) : s.st = .cmp := by
  have hst := h.rsp_eq_code hr (by decide)
  revert hst; cases s.st <;> decide

theorem State.Inv.st_eq_ovf_of_rsp_ovf {s : State} (h : s.Inv) (hr : s.rsp = some .ovf) : s.st = .ovf := by
  have hst := h.rsp_eq_code hr (by decide)
  revert hst; cases s.st <;> decide

theorem State.Inv.st_eq_acc_of_rsp_xerr {s : State} (h : s.Inv) (hr : s.rsp = some .xerr) : s.st = .acc := by
  obtain ⟨-, hst⟩ | hst := h.responseCode _ hr
  · exact hst
  · revert hst; cases s.st <;> decide

/-! ### The endings of ACQUIRE -/

section
variable {o : BusOutcome} (more : List Move) {s t : State} (he : pollingMove (s.meeting o) = .next t)
include he

/-- A move of the LFE that answers SENT goes on with ACQUIRE's TAKE (R101). -/
theorem acquire_sent (hr : t.rsp = some .sent) : acquire (.lfe o :: more) s = acquireTake more t := by
  simp only [acquire, he, hr]

theorem acquire_ovf (hr : t.rsp = some .ovf) : acquire (.lfe o :: more) s = .framingError t := by
  simp only [acquire, he, hr]

theorem acquire_xerr (hr : t.rsp = some .xerr) : acquire (.lfe o :: more) s = .transportError t := by
  simp only [acquire, he, hr]

end

/-- What each ending of ACQUIRE promises (R101, R186, R187), for parameters `p`. -/
def AcquireResult.Sound (p : Params) : AcquireResult → Prop
  | .sentence l t => isSentence p.maxlen l ∧ t.st = .acc ∧ t.len = 0 ∧ t.rsp = some .none
  | .framingError t => t.st = .ovf ∧ t.len = t.params.maxlen ∧ t.rsp = some .ovf
  | .transportError t => t.st = .acc ∧ t.rsp = some .xerr
  | .waiting _ => True
  | .stopped => False

/-- The producer may push before ACQUIRE's TAKE, which leaves the sentence held as it is (R101). -/
theorem acquireTake_sound (moves : List Move) {s : State} (h : s.Inv) (hp : s.phase = .idle) (hc : s.st = .cmp) :
    (acquireTake moves s).Sound s.params := by
  induction moves generalizing s with
  | nil => trivial
  | cons m more ih =>
    cases m with
    | push b => exact ih (h.execPush rfl) hp hc
    | lfe o =>
      obtain ⟨t, htake, hst, hlen, -, -, hrsp⟩ := acquireTake_lfe o more hp hc
      rw [htake]
      exact ⟨h.isSentence_sentence hc, hst, hlen, hrsp⟩

/-- ACQUIRE's loop, by induction over the moves: each move keeps the invariant, which says what a response means. -/
theorem acquire_sound (moves : List Move) {s : State} (h : s.Inv) : (acquire moves s).Sound s.params := by
  induction moves generalizing s with
  | nil => trivial
  | cons m more ih =>
    cases m with
    | push b => exact ih (h.execPush rfl)
    | lfe o =>
      obtain ⟨t, hm, ht, hparams⟩ := h.pollingMove_next o
      rw [← hparams]
      cases hr : t.rsp with
      | none => rw [acquire_loop more hm (.inl hr)]; exact ih ht
      | some r =>
        cases r with
        | none => rw [acquire_loop more hm (.inr hr)]; exact ih ht
        | sent =>
          rw [acquire_sent more hm hr]
          exact acquireTake_sound more ht (ht.responseIdle (by simp [hr])) (ht.st_eq_cmp_of_rsp_sent hr)
        | ovf =>
          have hst := ht.st_eq_ovf_of_rsp_ovf hr
          rw [acquire_ovf more hm hr]
          exact ⟨hst, (ht.ovfFull hst).1, hr⟩
        | xerr =>
          rw [acquire_xerr more hm hr]
          exact ⟨ht.st_eq_acc_of_rsp_xerr hr, hr⟩

/-! ### ACQUIRE over a stretch of moves that answers nothing, or NONE -/

/-- Over the moves `ms` ACQUIRE polls on from s to t. -/
def PollsOn (ms : List Move) (s t : State) : Prop := ∀ more, acquire (ms ++ more) s = acquire more t

theorem PollsOn.refl (s : State) : PollsOn [] s s := fun _ => rfl

theorem PollsOn.trans {ms ns : List Move} {s t u : State} (h : PollsOn ms s t) (h' : PollsOn ns t u) :
    PollsOn (ms ++ ns) s u := fun more => by rw [List.append_assoc, h, h']

theorem pollsOn_lfe {o : BusOutcome} {s t : State} (he : pollingMove (s.meeting o) = .next t)
    (hr : t.rsp = none ∨ t.rsp = some .none) : PollsOn [.lfe o] s t := fun more => acquire_loop more he hr

/-- A level that fits a byte reads as zero for an empty FIFO only (R113, R156). -/
theorem level_eq_zero_iff {f : List Byte} (h : f.length < 2 ^ 8) : BitVec.ofNat 8 f.length = 0#8 ↔ f = [] := by
  rw [BitVec.toNat_eq, BitVec.toNat_ofNat, Nat.mod_eq_of_lt h]
  exact List.length_eq_zero_iff

/-- What ACQUIRE has while it polls: l in the buffer and f in the FIFO, beside the rest `c` of the bridge chip. -/
structure Collects (p : Params) (c : Bridge) (l f : List Byte) (s : State) : Prop where
  inv : s.Inv
  st : s.st = .acc
  params : s.params = p
  bridge : s.bridge = { c with fifo := f }
  sentence : s.sentence = l

section
variable {p : Params} {c : Bridge} {l f : List Byte} {s : State}

theorem State.Inv.collects (h : s.Inv) (hst : s.st = .acc) : Collects s.params s.bridge s.sentence s.bridge.fifo s :=
  ⟨h, hst, rfl, rfl, rfl⟩

theorem Collects.fifo (h : Collects p c l f s) : s.bridge.fifo = f := by rw [h.bridge]

theorem Collects.len (h : Collects p c l f s) : s.len = l.length := by rw [← h.sentence, sentence_length]

/-- FIFO_DEPTH fits a byte (R7). -/
theorem Collects.fifo_length_lt (h : Collects p c l f s) : f.length < 2 ^ 8 :=
  h.fifo ▸ Nat.lt_succ_of_le (Nat.le_trans h.inv.fifoBound fifoDepth_bounds.2)

/-- A next state with the same sentence and the same bridge chip. -/
theorem Collects.keeps (h : Collects p c l f s) {t : State} (ht : t.Inv) (hst : t.st = s.st) (hlen : t.len = s.len)
    (hbuf : t.buf = s.buf) (hparams : t.params = s.params) (hbridge : t.bridge = s.bridge) : Collects p c l f t where
  inv := ht
  st := hst.trans h.st
  params := hparams.trans h.params
  bridge := hbridge.trans h.bridge
  sentence := (h.inv.sentence_eq hlen hbuf).trans h.sentence

/-- POLL is accepted (R111). -/
theorem Collects.pollAccept (h : Collects p c l f s) (hp : s.phase = .idle) (o : BusOutcome) :
    ∃ t, PollsOn [.lfe o] s t ∧ Collects p c l f t ∧ t.phase = .query := by
  have hm : pollingMove (s.meeting o) = .next { (s.meeting o).quiet with phase := .query } :=
    (pollingMove_idle (s := s.meeting o) hp).trans (execPoll_acc hp h.st)
  exact ⟨_, pollsOn_lfe hm (.inl rfl),
    h.keeps ((pollingMove_effect hm).inv (h.inv.meeting o)) rfl rfl rfl rfl rfl, rfl⟩

/-- The engine after a level read, or between two pops: f is what is left of the batch (R113, R120, R121). -/
structure AwaitsBatch (f : List Byte) (s : State) : Prop where
  phase : s.phase = if f = [] then .idle else .drain
  rem : s.rem = BitVec.ofNat 8 f.length

/-- The level read, acknowledged: the batch is the FIFO, and an empty FIFO answers NONE (R113). -/
theorem Collects.levelRead (h : Collects p c l f s) (hp : s.phase = .query) :
    ∃ t, PollsOn [.lfe .ack] s t ∧ Collects p c l f t ∧ AwaitsBatch f t := by
  have hm (t : State) (he : execLvl (s.meeting .ack) = .next t) : pollingMove (s.meeting .ack) = .next t :=
    (pollingMove_query (s := s.meeting .ack) hp).trans he
  have hinv (t : State) (he : execLvl (s.meeting .ack) = .next t) : t.Inv := (effect_of_execLvl he).inv (h.inv.meeting _)
  have hzero : BitVec.ofNat 8 (s.meeting .ack).bridge.fifo.length = 0#8 ↔ f = [] := by
    rw [meeting_bridge, h.fifo]; exact level_eq_zero_iff h.fifo_length_lt
  obtain ⟨hne, -⟩ | ⟨-, hno, -⟩ | ⟨-, ⟨took, hno⟩, -⟩ | ⟨-, -, hn, he⟩ | ⟨-, -, hn, he⟩ := execLvl_cases (s.meeting .ack)
  · exact absurd hp hne
  · cases hno
  · cases hno
  · obtain rfl := hzero.1 hn
    exact ⟨_, pollsOn_lfe (hm _ he) (.inr rfl), h.keeps (hinv _ he) rfl rfl rfl rfl rfl, rfl, rfl⟩
  · refine ⟨_, pollsOn_lfe (hm _ he) (.inl rfl), h.keeps (hinv _ he) rfl rfl rfl rfl rfl, ?_, ?_⟩
    · exact (if_neg (mt hzero.2 hn)).symm
    · rw [← h.fifo]; rfl

/-- A read that is due and fails ends ACQUIRE in TransportError, with the sentence kept (R117, R187). -/
theorem Collects.readFails (h : Collects p c l f s) (hx : p.hasXerr = true) (hdue : readDue s = true) (took : Bool)
    (more : List Move) : ∃ t, acquire (.lfe (.err took) :: more) s = .transportError t ∧ t.sentence = l := by
  have ho : (s.meeting (.err took)).busOutcome = .err took := by simp [State.busOutcome, h.params, hx]
  obtain ⟨b, d, x, hm⟩ := pollingMove_readFails (s := s.meeting (.err took)) hdue ho
  refine ⟨_, acquire_xerr more hm rfl, ?_⟩
  rw [← h.sentence]
  exact h.inv.sentence_eq rfl rfl

/-- A byte waiting for a full buffer ends ACQUIRE in FramingError (R116, R186). -/
theorem Collects.overflows (h : Collects p c l f s) (hp : s.phase = .drain) (hl : l.length = p.maxlen) (o : BusOutcome)
    (more : List Move) : ∃ t, acquire (.lfe o :: more) s = .framingError t := by
  have hm : pollingMove (s.meeting o) = .next (s.meeting o).quiet.raiseOverflow :=
    (pollingMove_drain (s := s.meeting o) hp).trans
      (execPull_full hp (by rw [meeting_len, meeting_params, h.len, h.params, hl]))
  exact ⟨_, acquire_ovf more hm rfl⟩

end

end Sys2Proof.Machine

open Sys2Proof Sys2Proof.Machine

/-- Settles O60: the invariant says what each response means, and a POLL's accept step and an acknowledged level read lead to the
read or the full buffer that ends ACQUIRE. -/
theorem acquireEndsAsItsResponseSays : Obligations.AcquireEndsAsItsResponseSays := by
  refine ⟨fun s moves h => ?sound, fun s took o o' more h hp hst => ?ends⟩
  case sound =>
    have hsound := acquire_sound moves h
    exact ⟨fun l t ht => by rwa [ht] at hsound, fun t ht => by rwa [ht] at hsound, fun t ht => by rwa [ht] at hsound,
      fun ht => by rwa [ht] at hsound⟩
  case ends =>
    have hs := h.collects hst
    obtain ⟨q, hpoll, hq, hquery⟩ := hs.pollAccept hp o
    obtain ⟨r, hlevel, hr, hbatch⟩ := hq.levelRead hquery
    have hpolls := hpoll.trans hlevel
    refine ⟨fun hl hf => ?full, fun hx => ?levelFails, fun hx hl hf => ?popFails, fun hx hf => ?laterLevelFails⟩
    case full =>
      obtain ⟨t, ht⟩ := hr.overflows (hbatch.phase.trans (if_neg hf)) ((sentence_length s).trans hl) o' more
      exact ⟨t, (hpolls _).trans ht⟩
    case levelFails =>
      obtain ⟨t, ht, -⟩ := hq.readFails hx ((readDue_iff q).2 (.inl hquery)) took more
      exact ⟨t, (hpoll _).trans ht⟩
    case popFails =>
      have hdue : readDue r = true :=
        (readDue_iff r).2 (.inr ⟨hbatch.phase.trans (if_neg hf), by rwa [hr.len, hr.params, sentence_length]⟩)
      obtain ⟨t, ht, hsentence⟩ := hr.readFails hx hdue took more
      exact ⟨t, (hpolls _).trans ht, hsentence⟩
    case laterLevelFails =>
      obtain ⟨u, hpoll', hu, hquery'⟩ := hr.pollAccept (hbatch.phase.trans (if_pos hf)) o'
      obtain ⟨t, ht, hsentence⟩ := hu.readFails hx ((readDue_iff u).2 (.inl hquery')) took more
      exact ⟨t, ((hpolls.trans hpoll') _).trans ht, hsentence⟩

end

section
/-! PROOFS. ACQUIRE with a producer that pushes one sentence in chunks (30_encoding.md R101): each chunk is pushed, counted and
drained, and the last byte of the sentence answers SENT. -/

namespace Sys2Proof.Machine

/-! ### A byte within a Sentence (R90) -/

theorem isSentence.length_lt {m : Nat} {l r : List Byte} (h : isSentence m (l ++ r)) (hr : r ≠ []) : l.length < m := by
  obtain ⟨-, hmax, -, -⟩ := h
  have hpos := List.length_pos_iff.2 hr
  rw [List.length_append] at hmax
  omega

theorem bytesAt_append_left {l : List Byte} (r : List Byte) {i : Nat} (hi : i < l.length) :
    bytesAt (l ++ r) i = bytesAt l i := by
  simp [bytesAt, List.getD, List.getElem?_append_left hi]

/-- A Sentence cut short does not end in the terminator. -/
theorem isSentence.init_not_terminated {m : Nat} {l r : List Byte} (h : isSentence m (l ++ r)) (hr : r ≠ []) :
    terminatorMatch (bytesAt l) l.length = false := by
  obtain ⟨-, -, -, hnone⟩ := h
  have hpos := List.length_pos_iff.2 hr
  refine Bool.eq_false_iff.2 fun hm => ?_
  obtain ⟨h2, ht0, ht1⟩ := (terminatorMatch_iff _ _).1 hm
  refine hnone (l.length - 1) (by omega) (by rw [List.length_append]; omega) ⟨?_, ?_⟩
  · rw [bytesAt_append_left r (by omega)]; exact ht0
  · rw [bytesAt_append_left r (by omega)]; exact ht1

/-! ### What a PULL's append makes of the sentence (R118) -/

theorem sentence_afterAppend (a : State) : (afterAppend a).sentence = a.sentence :=
  sentence_congr (afterAppend_len a) fun i _ => by simp [State.byteAt]

theorem State.Inv.sentence_appendByte_popped {s : State} (h : s.Inv) (b : Byte) (f : List Byte) (d : Nat) :
    (appendByte b (popped s b f d)).sentence = s.sentence ++ [b] := by
  rw [sentence_appendByte, h.sentence_eq (t := popped s b f d) rfl rfl]

/-- The match is a property of the sentence (R14, R119). -/
theorem terminated_eq (s : State) : s.terminated = terminatorMatch (bytesAt s.sentence) s.sentence.length := by
  rw [State.terminated, sentence_length]
  exact terminatorMatch_congr fun i hi => (bytesAt_sentence s hi).symm

/-! ### The producer's chunk, and the read of its level -/

section
variable {p : Params} {c : Bridge} {l f : List Byte} {s : State}

/-- A PUSH into a FIFO with room (R161). -/
theorem Collects.push (h : Collects p c l f s) (hroom : f.length < Config.fifoDepth) (b : Byte) :
    ∃ t, PollsOn [.push b] s t ∧ Collects p c l (f ++ [b]) t ∧ t.phase = s.phase := by
  have hbridge : s.bridge.push b = { c with fifo := f ++ [b] } := by
    rw [h.bridge]; exact if_pos hroom
  exact ⟨{ s.offClock with bridge := s.bridge.push b }, fun more => acquire_push more rfl,
    ⟨h.inv.execPush rfl, h.st, h.params, hbridge, h.sentence ▸ h.inv.sentence_eq rfl rfl⟩, rfl⟩

theorem Collects.pushChunk (h : Collects p c l f s) (chunk : List Byte) (hroom : f.length + chunk.length ≤ Config.fifoDepth) :
    ∃ t, PollsOn (chunk.map Move.push) s t ∧ Collects p c l (f ++ chunk) t ∧ t.phase = s.phase := by
  induction chunk generalizing f s with
  | nil => exact ⟨s, .refl s, by rwa [List.append_nil], rfl⟩
  | cons b chunk ih =>
    rw [List.length_cons] at hroom
    obtain ⟨t, hpush, ht, hphase⟩ := h.push (by omega) b
    obtain ⟨u, hrest, hu, hphase'⟩ := ih ht (by rw [List.length_append, List.length_singleton]; omega)
    rw [List.append_assoc, List.singleton_append] at hu
    exact ⟨u, hpush.trans hrest, hu, hphase'.trans hphase⟩

/-- The chunk, the POLL's accept step and the level read (R111, R113). -/
theorem Collects.beginBatch (h : Collects p c l [] s) (hp : s.phase = .idle) {chunk : List Byte}
    (hroom : chunk.length ≤ Config.fifoDepth) :
    ∃ t, PollsOn (chunk.map Move.push ++ [Move.lfe .ack, Move.lfe .ack]) s t ∧ Collects p c l chunk t ∧ AwaitsBatch chunk t := by
  obtain ⟨t, hpush, ht, hphase⟩ := h.pushChunk chunk (by simpa using hroom)
  obtain ⟨u, hpoll, hu, hquery⟩ := ht.pollAccept (hphase.trans hp) .ack
  obtain ⟨v, hlevel, hv, hbatch⟩ := hu.levelRead hquery
  exact ⟨v, hpush.trans (hpoll.trans hlevel), hv, hbatch⟩

/-! ### The drain -/

/-- A PULL of s whose pop is appended as a, where the end of the PULL finds l in the buffer and f in the FIFO (R115, R118). -/
structure PullAppends (p : Params) (c : Bridge) (l f : List Byte) (s a : State) : Prop where
  next : pollingMove (s.meeting .ack) = .next (afterAppend a)
  inv : (afterAppend a).Inv
  st : a.st = .acc
  phase : a.phase = .drain
  rsp : a.rsp = none
  params : a.params = p
  bridge : a.bridge = { c with fifo := f }
  rem : a.rem = BitVec.ofNat 8 f.length
  sentence : a.sentence = l

/-- A PULL in the normal view, with room in the buffer, pops the head and appends it (R115, R118). -/
theorem Collects.pull {b : Byte} (h : Collects p c l (b :: f) s) (hbatch : AwaitsBatch (b :: f) s)
    (hv : c.latchAccess = false) (hl : l.length < p.maxlen) : ∃ a, PullAppends p c (l ++ [b]) f s a := by
  have hp : s.phase = .drain := hbatch.phase
  have hlen : s.len < s.params.maxlen := by rwa [h.len, h.params]
  have hpop := fifoPop_ack_cons (s := (s.meeting .ack).quiet) rfl (by rw [quiet_bridge, meeting_bridge, h.bridge]; exact hv)
    h.fifo
  have hnext : pollingMove (s.meeting .ack) = .next (afterAppend (appendByte b (popped (s.meeting .ack) b f s.draws))) :=
    (pollingMove_drain (s := s.meeting .ack) hp).trans (execPull_appends hp hlen hpop hlen)
  exact ⟨_,
    { next := hnext
      inv := (pollingMove_effect hnext).inv (h.inv.meeting _)
      st := h.st
      phase := hp
      rsp := rfl
      params := h.params
      bridge := congrArg (fun c : Bridge => { c with fifo := f }) h.bridge
      rem := by
        show s.rem - 1 = _
        rw [hbatch.rem, List.length_cons]
        bv_omega
      sentence := ((h.inv.meeting _).sentence_appendByte_popped b f s.draws).trans (congrArg (· ++ [b]) h.sentence) }⟩

/-- A byte that does not end the sentence: the engine awaits the rest of the batch, or answers NONE (R120, R121). -/
theorem PullAppends.pollsOn {a : State} (h : PullAppends p c l f s a) (hm : terminatorMatch (bytesAt l) l.length = false) :
    ∃ t, PollsOn [.lfe .ack] s t ∧ Collects p c l f t ∧ AwaitsBatch f t := by
  have hlt : f.length < 2 ^ 8 := by
    have hbound := h.inv.fifoBound
    rw [afterAppend_bridge, h.bridge] at hbound
    exact Nat.lt_succ_of_le (Nat.le_trans hbound fifoDepth_bounds.2)
  have hzero : a.rem = 0 ↔ f = [] := by rw [h.rem]; exact level_eq_zero_iff hlt
  have hcollects (hst : (afterAppend a).st = .acc) : Collects p c l f (afterAppend a) :=
    ⟨h.inv, hst, (afterAppend_params a).trans h.params, (afterAppend_bridge a).trans h.bridge,
      (sentence_afterAppend a).trans h.sentence⟩
  rw [← h.sentence, ← terminated_eq] at hm
  obtain ⟨hterm, -⟩ | ⟨-, hrem, he⟩ | ⟨-, hrem, he⟩ := afterAppend_cases a
  · rw [hm] at hterm; cases hterm
  · obtain rfl := hzero.1 hrem
    exact ⟨_, pollsOn_lfe h.next (.inr (by rw [he])), hcollects (by rw [he]; exact h.st), by rw [he]; exact ⟨rfl, rfl⟩⟩
  · refine ⟨_, pollsOn_lfe h.next (.inl (by rw [he]; exact h.rsp)), hcollects (by rw [he]; exact h.st), ?_⟩
    rw [he]
    exact ⟨h.phase.trans (if_neg (mt hzero.2 hrem)).symm, h.rem⟩

/-- What ACQUIRE has at SENT: the sentence l, and f still in the FIFO (R119). -/
structure HoldsSentence (l f : List Byte) (s : State) : Prop where
  st : s.st = .cmp
  phase : s.phase = .idle
  fifo : s.bridge.fifo = f
  sentence : s.sentence = l

/-- The byte that ends the sentence (R119). -/
theorem PullAppends.sent {a : State} (h : PullAppends p c l f s a) (hm : terminatorMatch (bytesAt l) l.length = true) :
    ∃ t, (∀ more, acquire (.lfe .ack :: more) s = acquireTake more t) ∧ HoldsSentence l f t := by
  rw [← h.sentence, ← terminated_eq] at hm
  obtain ⟨-, he⟩ | ⟨hterm, -⟩ | ⟨hterm, -⟩ := afterAppend_cases a
  · refine ⟨_, fun more => acquire_sent more h.next (by rw [he]), by rw [he], by rw [he], ?_,
      (sentence_afterAppend a).trans h.sentence⟩
    rw [afterAppend_bridge, h.bridge]
  all_goals rw [hm] at hterm; cases hterm

/-- Bytes that do not end the sentence, drained from the front of the batch. -/
theorem Collects.drain (g : List Byte) {r : List Byte} (h : Collects p c l (g ++ f) s) (hbatch : AwaitsBatch (g ++ f) s)
    (hv : c.latchAccess = false) (hl : isSentence p.maxlen (l ++ (g ++ r))) (hr : r ≠ []) :
    ∃ t, PollsOn (List.replicate g.length (Move.lfe .ack)) s t ∧ Collects p c (l ++ g) f t ∧ AwaitsBatch f t := by
  induction g generalizing l s with
  | nil => exact ⟨s, .refl s, by rwa [List.append_nil], hbatch⟩
  | cons b g ih =>
    obtain ⟨a, ha⟩ := h.pull hbatch hv (hl.length_lt (by simp))
    rw [List.cons_append, List.append_cons] at hl
    obtain ⟨t, hpull, ht, hbatch'⟩ := ha.pollsOn (hl.init_not_terminated (by simp [hr]))
    obtain ⟨u, hrest, hu, hbatch''⟩ := ih ht hbatch' hl
    rw [List.append_cons]
    exact ⟨u, hpull.trans hrest, hu, hbatch''⟩

/-- The batch that ends the sentence: its last byte answers SENT. -/
theorem Collects.drainLast (h : Collects p c l f s) (hbatch : AwaitsBatch f s) (hv : c.latchAccess = false)
    (hl : isSentence p.maxlen (l ++ f)) (hf : f ≠ []) :
    ∃ t, (∀ more, acquire (List.replicate f.length (Move.lfe .ack) ++ more) s = acquireTake more t) ∧
      HoldsSentence (l ++ f) [] t := by
  obtain ⟨g, b, rfl⟩ := (List.eq_nil_or_concat' f).resolve_left hf
  obtain ⟨t, hdrain, ht, hbatch'⟩ := h.drain g hbatch hv hl (by simp)
  rw [← List.append_assoc] at hl
  obtain ⟨a, ha⟩ := ht.pull hbatch' hv (hl.length_lt (by simp))
  obtain ⟨-, -, hterm, -⟩ := hl
  obtain ⟨u, hsent, hu⟩ := ha.sent hterm
  refine ⟨u, fun more => ?_, by rwa [← List.append_assoc]⟩
  rw [List.length_append, List.replicate_add, List.append_assoc, hdrain]
  exact hsent more

/-! ### The chunks -/

/-- The TAKE after SENT returns the sentence and leaves the LFE empty and idle (R101, R141). -/
theorem HoldsSentence.acquireTake (h : HoldsSentence l f s) (o : BusOutcome) (more : List Move) :
    ∃ t, acquireTake (.lfe o :: more) s = .sentence l t ∧ t.st = .acc ∧ t.len = 0 ∧ t.phase = .idle ∧ t.bridge.fifo = f := by
  obtain ⟨t, htake, hst, hlen, hphase, hbridge, -⟩ := acquireTake_lfe o more h.phase h.st
  exact ⟨t, by rw [htake, h.sentence], hst, hlen, hphase, by rw [hbridge, h.fifo]⟩

theorem chunkMoves_cons (chunk : List Byte) (chunks : List (List Byte)) :
    chunkMoves (chunk :: chunks) =
      (chunk.map Move.push ++ [Move.lfe .ack, Move.lfe .ack]) ++
        (List.replicate chunk.length (Move.lfe .ack) ++ chunkMoves chunks) := by
  simp [chunkMoves, List.replicate_succ]

/-- Chunks without a byte begin with a POLL's accept step, in the place of which ACQUIRE takes once SENT is answered. -/
theorem chunkMoves_of_flatten_eq_nil {chunks : List (List Byte)} (h : chunks.flatten = []) :
    ∃ more, chunkMoves chunks ++ [Move.lfe .ack] = .lfe .ack :: more := by
  cases chunks with
  | nil => exact ⟨_, rfl⟩
  | cons chunk chunks =>
    obtain ⟨rfl, -⟩ := List.append_eq_nil_iff.1 (List.flatten_cons.symm.trans h)
    exact ⟨_, rfl⟩

/-- ACQUIRE from a state between two chunks, by induction over the chunks that are left. -/
theorem Collects.acquire_chunkMoves (chunks : List (List Byte)) (h : Collects p c l [] s) (hp : s.phase = .idle)
    (hv : c.latchAccess = false) (hroom : ∀ chunk ∈ chunks, chunk.length ≤ Config.fifoDepth) (hne : chunks.flatten ≠ [])
    (hl : isSentence p.maxlen (l ++ chunks.flatten)) :
    ∃ t, acquire (chunkMoves chunks ++ [Move.lfe .ack]) s = .sentence (l ++ chunks.flatten) t ∧
      t.st = .acc ∧ t.len = 0 ∧ t.phase = .idle ∧ t.bridge.fifo = [] := by
  induction chunks generalizing l s with
  | nil => exact absurd rfl hne
  | cons chunk chunks ih =>
    obtain ⟨hchunk, hchunks⟩ := List.forall_mem_cons.1 hroom
    obtain ⟨t, hbegin, ht, hbatch⟩ := h.beginBatch hp hchunk
    rw [List.flatten_cons] at hne hl ⊢
    rw [chunkMoves_cons, List.append_assoc, hbegin, List.append_assoc]
    by_cases hlast : chunks.flatten = []
    · rw [hlast, List.append_nil] at hne hl ⊢
      obtain ⟨more, hmore⟩ := chunkMoves_of_flatten_eq_nil hlast
      obtain ⟨u, hsent, hu⟩ := ht.drainLast hbatch hv hl hne
      rw [hsent, hmore]
      exact hu.acquireTake .ack more
    · obtain ⟨u, hdrain, hu, hbatch'⟩ := Collects.drain (f := []) chunk (by rwa [List.append_nil])
        (by rwa [List.append_nil]) hv hl hlast
      rw [← List.append_assoc] at hl
      rw [hdrain, ← List.append_assoc]
      exact ih hu hbatch'.phase hchunks hlast hl

end

end Sys2Proof.Machine

open Sys2Proof Sys2Proof.Machine

/-- Settles O59, by induction over the chunks: a sentence cut short does not end in the terminator, so every batch before the last
answers NONE. -/
theorem acquireReturnsTheSentence : Obligations.AcquireReturnsTheSentence := by
  intro s chunks h hp hst hlen hfifo hv hl hroom
  have hempty : s.sentence = [] := List.eq_nil_of_length_eq_zero ((sentence_length s).trans hlen)
  have hs := h.collects hst
  rw [hempty, hfifo] at hs
  have hne : chunks.flatten ≠ [] := List.ne_nil_of_length_pos (Nat.lt_of_lt_of_le Nat.two_pos hl.1)
  exact hs.acquire_chunkMoves chunks hp hv hroom hne hl

end

section
/-! PROOFS. One step of a poll cycle: the host commands, LVL and PULL (40_poll.md R111 to R122), each on the states its rule speaks
of, and what they leave unchanged. -/

namespace Sys2Proof.Machine

/-! ### The host commands (R111, R141 to R145) -/

/-- A command answers the code of st, but for a POLL in ACC and a TAKE in CMP. -/
theorem commandStep_cases {i : Instr} (hi : HostCommand i) (s : State) :
    commandStep i s = s.respondStatus ∨
    (i = .poll ∧ commandStep i s = { s with phase := .query }) ∨
    (i = .take ∧ commandStep i s = { s with emission := some s.sentence, len := 0, st := .acc }.respond .none) := by
  obtain rfl | rfl | rfl | rfl := hi
  · exact .inl rfl
  · exact (pollAccept_cases s).elim (fun h => .inr (.inl ⟨rfl, h.2⟩)) fun h => .inl h.2
  · exact (takeStep_cases s).elim (fun h => .inr (.inr ⟨rfl, h.2⟩)) fun h => .inl h.2
  · exact .inl rfl

/-- POLL accepted outside ACC answers the code of st (R122). -/
theorem execPoll_of_ne_acc {s : State} {f : Framing} (hp : s.phase = .idle) (hst : s.st = f) (hf : f ≠ .acc) :
    execPoll s = .next (s.quiet.respond f.response) := by
  subst hst
  obtain ⟨ha, -⟩ | ⟨-, h⟩ := pollAccept_cases s.quiet
  · exact absurd ha hf
  · rw [execPoll, accept_idle _ hp, h]; rfl

/-! ### LVL (R113) -/

theorem execLvl_query {s : State} (hp : s.phase = .query) : execLvl s = .next (lvlReply s.quiet.fifoLevel) := if_pos hp

theorem execLvl_err {s : State} {took : Bool} (hp : s.phase = .query) (ho : s.busOutcome = .err took) :
    execLvl s = .next { s.quiet with bus := some ⟨0xC8, .failed⟩ }.raiseTransportError := by
  rw [execLvl_query hp, fifoLevel_err (took := took) (by rwa [busOutcome_quiet])]
  rfl

theorem execLvl_ack {s : State} {n : Byte} (hp : s.phase = .query) (ho : s.busOutcome = .ack)
    (hn : BitVec.ofNat 8 s.bridge.fifo.length = n) :
    execLvl s = .next (
      if n = 0 then { s.quiet with bus := some ⟨0xC8, .data n⟩ }.endCommand .none
      else { s.quiet with rem := n, phase := .drain, bus := some ⟨0xC8, .data n⟩ }) := by
  subst hn
  rw [execLvl_query hp, fifoLevel_ack (by rwa [busOutcome_quiet])]
  rfl

/-- FIFO_DEPTH fits a byte (R7). -/
theorem lt_of_le_fifoDepth {n : Nat} (h : n ≤ Config.fifoDepth) : n < 2 ^ 8 :=
  Nat.lt_succ_of_le (Nat.le_trans h fifoDepth_bounds.2)

/-- LVL changes neither the framing state, the buffer nor the bridge chip (R113). -/
theorem execLvl_frame {s t : State} (h : execLvl s = .next t) :
    ∃ rem phase rsp bus, t = { s.quiet with rem, phase, rsp, bus } := by
  obtain ⟨-, he⟩ | ⟨-, -, he⟩ | ⟨-, -, he⟩ | ⟨-, -, -, he⟩ | ⟨-, -, -, he⟩ := execLvl_cases s <;>
    cases h.symm.trans he
  all_goals exact ⟨_, _, _, _, rfl⟩

/-! ### PULL (R115 to R121) -/

@[simp] theorem afterAppend_outcome (a : State) : (afterAppend a).outcome = a.outcome := by
  obtain ⟨_, _, _, _, h⟩ := afterAppend_frame a; rw [h]

@[simp] theorem afterAppend_schedule (a : State) : (afterAppend a).schedule = a.schedule := by
  obtain ⟨_, _, _, _, h⟩ := afterAppend_frame a; rw [h]

/-- PULL takes at most the FIFO's head from the bridge chip, and emits nothing (R115, R160). -/
theorem execPull_frame {s t : State} (h : execPull s = .next t) :
    (∃ f, t.bridge = { s.bridge with fifo := f } ∧ (f = s.bridge.fifo ∨ f = s.bridge.fifo.tail)) ∧
    t.outcome = s.outcome ∧ t.schedule = s.schedule ∧ t.emission = none := by
  obtain ⟨-, he⟩ | ⟨-, -, he⟩ | ⟨-, -, -, he⟩ | ⟨-, -, took, f, d, -, hf, he⟩ |
    ⟨-, -, b, f, d, -, -, hf, ⟨-, he⟩ | ⟨-, he⟩⟩ := execPull_cases s <;> cases h.symm.trans he
  · exact ⟨⟨_, rfl, .inl rfl⟩, rfl, rfl, rfl⟩
  · exact ⟨⟨_, rfl, .inl rfl⟩, rfl, rfl, rfl⟩
  · exact ⟨⟨_, rfl, .inl rfl⟩, rfl, rfl, rfl⟩
  · exact ⟨⟨f, rfl, hf⟩, rfl, rfl, rfl⟩
  · exact ⟨⟨f, afterAppend_bridge _, hf⟩, afterAppend_outcome _, afterAppend_schedule _, afterAppend_emission _⟩

/-! ### The len output (R124) -/

/-- LENW bits hold every length up to MAXLEN (R7). -/
theorem maxlen_lt_two_pow_lenw (p : Params) : p.maxlen < 2 ^ p.lenw := Nat.lt_log2_self

end Sys2Proof.Machine

open Sys2Proof Sys2Proof.Machine

/-- Settles O7: POLL accepted in ACC begins a poll cycle, and elsewhere answers the code of st. -/
theorem pollIsAcceptedFromIdle : Obligations.PollIsAcceptedFromIdle := by
  intro s hp
  exact ⟨fun hst => execPoll_acc hp hst, fun hst => execPoll_of_ne_acc hp hst (by decide),
    fun hst => execPoll_of_ne_acc hp hst (by decide)⟩

/-- Settles O13: a command offered while busy does nothing, and one accepted answers, begins a poll cycle or emits. -/
theorem hostCommandsFrame : Obligations.HostCommandsFrame := by
  intro s t i hi h
  cases h.symm.trans (exec_hostCommand hi s)
  by_cases hp : s.phase = .idle
  · rw [accept_idle _ hp]
    obtain h | ⟨rfl, h⟩ | ⟨rfl, h⟩ := commandStep_cases hi s.quiet <;> rw [h]
    · exact ⟨rfl, fun _ => rfl, rfl, rfl, rfl, rfl, fun _ => ⟨rfl, rfl, rfl⟩, fun _ => rfl⟩
    · exact ⟨rfl, fun _ => rfl, rfl, rfl, rfl, rfl, fun _ => ⟨rfl, rfl, rfl⟩, fun hne => absurd rfl hne⟩
    · exact ⟨rfl, fun _ => rfl, rfl, rfl, rfl, rfl, fun hne => absurd rfl hne, fun _ => rfl⟩
  · rw [accept_busy _ hp]
    exact ⟨rfl, fun _ => rfl, rfl, rfl, rfl, rfl, fun _ => ⟨rfl, rfl, rfl⟩, fun _ => rfl⟩

/-- Settles O14: a level within FIFO_DEPTH fits a byte, so it reads as zero for the empty FIFO only. -/
theorem lvlQueriesTheLevel : Obligations.LvlQueriesTheLevel := by
  intro s hp hdepth
  have hlt := lt_of_le_fifoDepth hdepth
  have hzero := level_eq_zero_iff hlt
  refine ⟨fun took ho => execLvl_err hp ho, fun ho hf => ?empty,
    fun ho hf => ⟨BitVec.ofNat 8 s.bridge.fifo.length, ?toNat, ?batch⟩⟩
  case empty => exact (execLvl_ack hp ho (hzero.2 hf)).trans (congrArg _ (if_pos rfl))
  case toNat => exact (BitVec.toNat_ofNat _ _).trans (Nat.mod_eq_of_lt hlt)
  case batch => exact (execLvl_ack hp ho rfl).trans (congrArg _ (if_neg (mt hzero.1 hf)))

/-- Settles O15: the cycle is POLL's accept step and a level read of zero, which ends it. -/
theorem levelZeroNeverPops : Obligations.LevelZeroNeverPops := by
  intro s hp hst hrem hfifo
  have hlvl := (execLvl_ack (s := State.meeting .ack { s.quiet with phase := .query }) (n := 0) rfl rfl
    (by simp [hfifo])).trans (congrArg _ (if_pos rfl))
  rw [allAcknowledged_eq, pollCycle_acc _ hp hst hlvl, runEngine_idle _ rfl]
  simp only [State.endCommand, State.meeting, State.quiet, hp, hrem]
  rfl

/-- Settles O16: the overflow guard comes before the pop. -/
theorem pullRaisesOverflowWhenFull : Obligations.PullRaisesOverflowWhenFull :=
  fun _ hp hl => execPull_full hp hl

/-- Settles O17: whichever read fails, the command ends, and a failed pop may have taken the FIFO's head. -/
theorem transportErrorEndsTheCycle : Obligations.TransportErrorEndsTheCycle := by
  intro s took ho
  refine ⟨fun hp => execLvl_err hp ho, fun hp hl => ?pop⟩
  obtain ⟨f, d, hpop, hf⟩ := fifoPop_err (s := s.quiet) (took := took) (by rwa [busOutcome_quiet])
  exact ⟨f, d, hf, (execPull_pop hp hl).trans (by rw [hpop]; rfl)⟩

/-- Settles O18: the pop gives the head, and the end of the PULL decides on the state after the append. -/
theorem pullAppendsThePoppedByte : Obligations.PullAppendsThePoppedByte := by
  intro s b rest hp hl ho hv hfifo a ha
  have hpop := fifoPop_ack_cons (s := s.quiet) (by rwa [busOutcome_quiet]) hv hfifo
  have hpull : exec .pull s = .next (afterAppend a) := by
    rw [ha]; exact execPull_appends hp hl hpop hl
  rw [hpull, afterAppend_eq]
  refine ⟨fun hm => ?sent, fun hm hrem => ?last, fun hm hrem => ?more⟩
  case sent => rw [if_pos hm]
  case last => rw [if_neg (Bool.eq_false_iff.1 hm), if_pos hrem]
  case more => rw [if_neg (Bool.eq_false_iff.1 hm), if_neg hrem]

/-- Settles O23: LVL writes rem, phase and the outputs; PULL writes one cell where len grows, and none elsewhere. -/
theorem engineStepsFrame : Obligations.EngineStepsFrame := by
  intro s t
  refine ⟨fun h => ?lvl, fun h => ?pull⟩
  case lvl =>
    obtain ⟨_, _, _, _, rfl⟩ := execLvl_frame h
    exact ⟨rfl, rfl, fun _ => rfl, rfl, rfl, rfl, rfl, rfl, rfl⟩
  case pull =>
    obtain ⟨hbridge, houtcome, hschedule, hemission⟩ := execPull_frame h
    have hparams := (exec_effect h).params
    obtain ⟨hbuf, hlen⟩ | ⟨-, hlen, b, hbuf⟩ := (exec_effect h).buffer
    · exact ⟨fun _ _ => by rw [hbuf], fun _ _ => by rw [hbuf], .inl (by simpa using hlen), hbridge, hparams, houtcome,
        hschedule, hemission⟩
    · exact ⟨fun a ha => by rw [hbuf, Memory.read_write_other _ _ ha], fun hsame => by omega, .inr hlen, hbridge, hparams,
        houtcome, hschedule, hemission⟩

/-- Settles O51: len is at most MAXLEN (R33). -/
theorem lenPortShowsTheLength : Obligations.LenPortShowsTheLength :=
  fun s h =>
    have hlt := maxlen_lt_two_pow_lenw s.params
    ⟨hlt, (BitVec.toNat_ofNat _ _).trans (Nat.mod_eq_of_lt (Nat.lt_of_le_of_lt h.lenBound hlt))⟩

end

section
/-! PROOFS. A whole poll cycle without another agent between (40_poll.md R110, R123, R125): the moves of ACQUIRE's loop, run by
`runEngine`, and the buffer, FIFO and response they end with. -/

namespace Sys2Proof.Machine

/-! ### The moves of a poll cycle -/

/-- Where ACQUIRE polls on over one move of the LFE, it does so from that move's next state (R101). -/
theorem PollsOn.lfe_next {o : BusOutcome} {s t : State} (h : PollsOn [.lfe o] s t) :
    pollingMove (s.meeting o) = .next t ∧ t.rsp ≠ some .xerr := by
  have hwaits : acquire [.lfe o] s = .waiting t := h []
  cases hm : pollingMove (s.meeting o) with
  | next u =>
    cases hr : u.rsp with
    | none => rw [acquire_loop [] hm (.inl hr)] at hwaits; cases hwaits; exact ⟨rfl, by simp [hr]⟩
    | some r =>
      cases r with
      | none => rw [acquire_loop [] hm (.inr hr)] at hwaits; cases hwaits; exact ⟨rfl, by simp [hr]⟩
      | sent => rw [acquire_sent [] hm hr] at hwaits; cases hwaits; exact ⟨rfl, by simp [hr]⟩
      | ovf => rw [acquire_ovf [] hm hr] at hwaits; cases hwaits
      | xerr => rw [acquire_xerr [] hm hr] at hwaits; cases hwaits
  | fault e => simp only [acquire, hm] at hwaits; cases hwaits
  | refused e => simp only [acquire, hm] at hwaits; cases hwaits

theorem PollsOn.push_next {b : Byte} {s t : State} (h : PollsOn [.push b] s t) : execPush b s = .next t := by
  cases (h []).symm.trans (acquire_push [] (b := b) (s := s) rfl)
  rfl

/-- A micro-step of a busy engine (R113, R115). -/
theorem runEngine_busy {o : BusOutcome} (os : List BusOutcome) {s t : State} (hp : s.phase ≠ .idle)
    (he : pollingMove (s.meeting o) = .next t) : runEngine (o :: os) s = runEngine os t := by
  cases h : s.phase with
  | idle => exact absurd h hp
  | query => exact runEngine_query os h ((pollingMove_query (s := s.meeting o) h).symm.trans he)
  | drain => exact runEngine_drain os h ((pollingMove_drain (s := s.meeting o) h).symm.trans he)

/-- A whole POLL is its accept step and then the engine's steps (R110). -/
theorem pollCycle_eq {os : List BusOutcome} {s t : State} (he : execPoll s = .next t) : pollCycle os s = runEngine os t := by
  simp only [pollCycle, he]

/-- A micro-step that brings the engine to IDLE ends the command with a response (R24, R41). -/
theorem Effect.rsp_ne_none {i : Instr} {s t : State} (he : Effect s i t) (hi : i = .lvl ∨ i = .pull) (hp : s.phase ≠ .idle)
    (ht : t.phase = .idle) : t.rsp ≠ none := by
  cases he with
  | holds => exact absurd ht hp
  | beginsBatch => cases ht
  | failsRead | readsLevelZero | overflows => exact fun hr => by cases hr
  | @appends _ _ _ b f d =>
    obtain ⟨-, h⟩ | ⟨-, -, h⟩ | ⟨-, -, h⟩ := afterAppend_cases (appendByte b (popped s b f d)) <;> rw [h] at ht ⊢
    · exact fun hr => by cases hr
    · exact fun hr => by cases hr
    · exact absurd ht hp
  | answers hcommand => obtain rfl | rfl := hi <;> simp [HostCommand] at hcommand
  | transacts hforeign => obtain rfl | rfl := hi <;> simp [ForeignAccess] at hforeign
  | beginsPoll | emits | pushes | resets => simp at hi

theorem pollingInstr_of_busy {p : Phase} (h : p ≠ .idle) : pollingInstr p = .lvl ∨ pollingInstr p = .pull := by
  cases p
  · exact absurd rfl h
  · exact .inl rfl
  · exact .inr rfl

/-! ### The drain (R115 to R121) -/

/-- A poll cycle after a level read, or between two pops: l in the buffer and the batch f to come; with no batch left, NONE has
been answered. -/
structure Drains (p : Params) (c : Bridge) (l f : List Byte) (s : State) : Prop where
  collects : Collects p c l f s
  awaits : AwaitsBatch f s
  answered : f = [] → s.rsp = some .none

/-- A poll cycle that ended as the big step `r` says (R123). -/
structure PollEnds (p : Params) (c : Bridge) (r : Framing × List Byte × List Byte × Response) (t : State) : Prop where
  inv : t.Inv
  phase : t.phase = .idle
  params : t.params = p
  st : t.st = r.1
  sentence : t.sentence = r.2.1
  bridge : t.bridge = { c with fifo := r.2.2.1 }
  rsp : t.rsp = some r.2.2.2

section
variable {p : Params} {c : Bridge} {l f : List Byte} {s t : State}

/-- A move to an engine without a batch answered NONE, the only response but XERR that ACC has (R82). -/
theorem Drains.of_pollsOn {o : BusOutcome} (hp : s.phase ≠ .idle) (h : PollsOn [.lfe o] s t) (ht : Collects p c l f t)
    (hbatch : AwaitsBatch f t) : Drains p c l f t := by
  refine ⟨ht, hbatch, fun hf => ?_⟩
  obtain ⟨hnext, hx⟩ := h.lfe_next
  have hsome := (pollingMove_effect hnext).rsp_ne_none (pollingInstr_of_busy hp) hp (hbatch.phase.trans (if_pos hf))
  obtain ⟨r, hr⟩ := Option.ne_none_iff_exists'.1 hsome
  rw [hr, ht.inv.rsp_eq_code hr (fun h => hx (h ▸ hr)), ht.st]
  rfl

/-- The byte that ends the sentence ends the cycle (R119). -/
theorem PullAppends.pollEnds {a : State} (h : PullAppends p c l f s a) (hm : terminatorMatch (bytesAt l) l.length = true) :
    PollEnds p c (.cmp, l, f, .sent) (afterAppend a) := by
  rw [← h.sentence, ← terminated_eq] at hm
  obtain ⟨-, he⟩ | ⟨hterm, -⟩ | ⟨hterm, -⟩ := afterAppend_cases a
  · exact
      { inv := h.inv
        phase := by rw [he]
        params := (afterAppend_params a).trans h.params
        st := by rw [he]
        sentence := (sentence_afterAppend a).trans h.sentence
        bridge := (afterAppend_bridge a).trans h.bridge
        rsp := by rw [he] }
  all_goals rw [hm] at hterm; cases hterm

/-- The full buffer ends the cycle, with the FIFO as it is (R116). -/
theorem Collects.pollOverflows (h : Collects p c l f s) (hp : s.phase = .drain) (hl : l.length = p.maxlen) (o : BusOutcome) :
    ∃ t, pollingMove (s.meeting o) = .next t ∧ PollEnds p c (.ovf, l, f, .ovf) t := by
  have hnext : pollingMove (s.meeting o) = .next (s.meeting o).quiet.raiseOverflow :=
    (pollingMove_drain (s := s.meeting o) hp).trans
      (execPull_full hp (by rw [meeting_len, meeting_params, h.len, h.params, hl]))
  exact ⟨_, hnext,
    { inv := (pollingMove_effect hnext).inv (h.inv.meeting o)
      phase := rfl
      params := h.params
      st := rfl
      sentence := (h.inv.sentence_eq rfl rfl).trans h.sentence
      bridge := h.bridge
      rsp := rfl }⟩

/-- The drain of a batch, by induction over it, is the big step of R123. -/
theorem Drains.runEngine (h : Drains p c l f s) (hv : c.latchAccess = false) {n : Nat} (hn : f.length ≤ n) :
    ∃ t, runEngine (List.replicate n .ack) s = .next t ∧ PollEnds p c (bigPoll p.maxlen l f) t := by
  induction f generalizing l s n with
  | nil =>
    obtain ⟨hs, hbatch, hrsp⟩ := h
    exact ⟨s, runEngine_idle _ hbatch.phase, hs.inv, hbatch.phase, hs.params, hs.st, hs.sentence, hs.bridge, hrsp rfl⟩
  | cons b f ih =>
    obtain ⟨hs, hbatch, -⟩ := h
    obtain ⟨n, rfl⟩ := Nat.exists_eq_add_of_le' (Nat.succ_le_of_lt (Nat.lt_of_lt_of_le (Nat.succ_pos _) hn))
    have hp : s.phase = .drain := hbatch.phase
    have hbusy : s.phase ≠ .idle := by simp [hp]
    rw [List.replicate_succ, bigPoll]
    split
    next hl =>
      obtain ⟨t, hnext, ht⟩ := hs.pollOverflows hp hl .ack
      exact ⟨t, (runEngine_busy _ hbusy hnext).trans (runEngine_idle _ ht.phase), ht⟩
    next hl =>
      have hroom : l.length < p.maxlen := by
        have hbound := hs.inv.lenBound
        rw [hs.len, hs.params] at hbound
        omega
      obtain ⟨a, ha⟩ := hs.pull hbatch hv hroom
      have hlen : l.length + 1 = (l ++ [b]).length := by simp
      rw [hlen]
      split
      next hm =>
        exact ⟨_, (runEngine_busy _ hbusy ha.next).trans (runEngine_idle _ (ha.pollEnds hm).phase), ha.pollEnds hm⟩
      next hm =>
        obtain ⟨t, hpolls, ht, hbatch'⟩ := ha.pollsOn (Bool.eq_false_iff.2 hm)
        rw [runEngine_busy _ hbusy hpolls.lfe_next.1]
        exact ih (.of_pollsOn hbusy hpolls ht hbatch') (Nat.le_of_succ_le_succ hn)

/-- A whole POLL from ACC, with every read acknowledged, is the big step of R123. -/
theorem Collects.pollCycle (h : Collects p c l f s) (hp : s.phase = .idle) (hv : c.latchAccess = false) :
    ∃ t, pollCycle allAcknowledged s = .next t ∧ PollEnds p c (bigPoll p.maxlen l f) t := by
  obtain ⟨q, haccept, hq, hquery⟩ := h.pollAccept hp s.outcome
  obtain ⟨r, hlevel, hr, hbatch⟩ := hq.levelRead hquery
  have hbusy : q.phase ≠ .idle := by simp [hquery]
  have hpoll : execPoll s = .next q := (pollingMove_idle hp).symm.trans haccept.lfe_next.1
  rw [pollCycle_eq hpoll, allAcknowledged_eq, runEngine_busy _ hbusy hlevel.lfe_next.1]
  exact (Drains.of_pollsOn hbusy hlevel hr hbatch).runEngine hv (Nat.le_of_lt_succ h.fifo_length_lt)

end

end Sys2Proof.Machine

open Sys2Proof Sys2Proof.Machine

/-- Settles O53, by induction over the FIFO: each PULL is one step of the function. -/
theorem pollCycleIsTheBigStepFunction : Obligations.PollCycleIsTheBigStepFunction := by
  intro s h hp hst hv
  obtain ⟨t, hcycle, ht⟩ := (h.collects hst).pollCycle hp hv
  exact ⟨t, hcycle, ht.phase, ht.st, ht.sentence, ht.bridge, ht.rsp⟩

/-- Settles O56: the big step's first byte T1 after T0 in the buffer is the match of R119. -/
theorem splitTerminatorIsDetected : Obligations.SplitTerminatorIsDetected := by
  intro s rest h hp hst hv hpos hroom ht0 hfifo
  have hs := h.collects hst
  rw [hfifo] at hs
  obtain ⟨t, hcycle, ht⟩ := hs.pollCycle hp hv
  have hmatch : terminatorMatch (bytesAt (s.sentence ++ [Config.t1])) (s.sentence.length + 1) = true := by
    refine (terminatorMatch_iff _ _).2 ⟨by rw [sentence_length]; omega, ?_, ?_⟩
    · rw [Nat.add_sub_add_right s.sentence.length 1 1, bytesAt_append_left _ (by rw [sentence_length]; omega), sentence_length,
        bytesAt_sentence s (by omega), ht0]
    · simp [bytesAt]
  have hbig : bigPoll s.params.maxlen s.sentence (Config.t1 :: rest) = (.cmp, s.sentence ++ [Config.t1], rest, .sent) := by
    rw [bigPoll, if_neg (by rw [sentence_length]; omega), if_pos hmatch]
  rw [hbig] at ht
  exact ⟨t, hcycle, ht.st, ht.rsp, ht.sentence, congrArg Bridge.fifo ht.bridge⟩

end

section
/-! PROOFS. FEED (30_encoding.md R102, 40_poll.md R126): one byte pushed and polled at a time, up to a terminator or past the
bound. -/

namespace Sys2Proof.Machine

/-! ### Byte sequences without a terminator -/

/-- No terminator lies within the sequence (R34). -/
def Unterminated (l : List Byte) : Prop := noTerminatorBefore (bytesAt l) l.length

theorem Unterminated.terminatorMatch_eq_false {l : List Byte} (h : Unterminated l) :
    terminatorMatch (bytesAt l) l.length = false := by
  refine Bool.eq_false_iff.2 fun hm => ?_
  obtain ⟨h2, ht0, ht1⟩ := (terminatorMatch_iff _ _).1 hm
  exact h (l.length - 1) (by omega) (by omega) ⟨ht0, ht1⟩

/-- The bytes before any index up to which no terminator lies. -/
theorem unterminated_take {l : List Byte} {n m : Nat} (h : noTerminatorBefore (bytesAt l) m) (hn : n ≤ m) :
    Unterminated (l.take n) := by
  intro i h1 hi
  rw [List.length_take] at hi
  have hbyte (j : Nat) (hj : j ≤ i) : bytesAt (l.take n) j = bytesAt l j := by
    conv => rhs; rw [← List.take_append_drop n l]
    exact (bytesAt_append_left _ (by rw [List.length_take]; omega)).symm
  rw [hbyte _ (Nat.sub_le i 1), hbyte _ (Nat.le_refl i)]
  exact h i h1 (by omega)

theorem Unterminated.of_append {l r : List Byte} (h : Unterminated (l ++ r)) : Unterminated l := by
  have ht := unterminated_take (n := l.length) h (by simp)
  rwa [List.take_left] at ht

/-! ### One byte fed -/

theorem feed_cons {b : Byte} (more : List Byte) {s t u : State} (hpush : execPush b s = .next t)
    (hpoll : pollCycle allAcknowledged t = .next u) : feed (b :: more) s = feed more u := by
  simp only [feed, hpush, hpoll]

section
variable {p : Params} {c : Bridge} {l : List Byte} {s : State}

/-- One byte pushed into the empty FIFO and polled is the big step of that byte (R102, R123). -/
theorem Collects.feedByte (h : Collects p c l [] s) (hp : s.phase = .idle) (hv : c.latchAccess = false) (b : Byte) :
    ∃ t, (∀ more, feed (b :: more) s = feed more t) ∧ PollEnds p c (bigPoll p.maxlen l [b]) t := by
  obtain ⟨q, hpush, hq, hphase⟩ := h.push (Nat.succ_pos _) b
  obtain ⟨t, hcycle, ht⟩ := hq.pollCycle (hphase.trans hp) hv
  exact ⟨t, fun more => feed_cons more hpush.push_next hcycle, ht⟩

/-- The big step of one byte with room for it. -/
theorem bigPoll_singleton {m : Nat} (hl : l.length < m) (b : Byte) :
    bigPoll m l [b] =
      if terminatorMatch (bytesAt (l ++ [b])) (l ++ [b]).length then (.cmp, l ++ [b], [], .sent)
      else (.acc, l ++ [b], [], .none) := by
  rw [bigPoll, if_neg (Nat.ne_of_lt hl), bigPoll, List.length_append, List.length_singleton]

/-- Bytes without a terminator, with room for them, collect in the buffer, by induction over them. -/
theorem Collects.feed (g : List Byte) (h : Collects p c l [] s) (hp : s.phase = .idle) (hv : c.latchAccess = false)
    (hroom : (l ++ g).length ≤ p.maxlen) (hnone : Unterminated (l ++ g)) :
    ∃ t, (∀ more, feed (g ++ more) s = feed more t) ∧ Collects p c (l ++ g) [] t ∧ t.phase = .idle := by
  induction g generalizing l s with
  | nil => exact ⟨s, fun _ => rfl, by rwa [List.append_nil], hp⟩
  | cons b g ih =>
    obtain ⟨t, hfeed, ht⟩ := h.feedByte hp hv b
    rw [List.append_cons] at hroom hnone ⊢
    have hmatch := (hnone.of_append (l := l ++ [b])).terminatorMatch_eq_false
    rw [bigPoll_singleton (by simp at hroom; omega), if_neg (Bool.eq_false_iff.1 hmatch)] at ht
    obtain ⟨u, hrest, hu⟩ := ih ⟨ht.inv, ht.st, ht.params, ht.bridge, ht.sentence⟩ ht.phase hroom hnone
    exact ⟨u, fun more => (hfeed _).trans (hrest more), hu⟩

/-- The first n bytes of a stream, fed to the empty LFE, where no terminator lies before index m. -/
theorem Collects.feedTake (h : Collects p c [] [] s) (hp : s.phase = .idle) (hv : c.latchAccess = false) {m n : Nat}
    (hnone : noTerminatorBefore (bytesAt l) m) (hn : n ≤ m) (hm : n ≤ p.maxlen) :
    ∃ t, (∀ more, Machine.feed (l.take n ++ more) s = Machine.feed more t) ∧ Collects p c (l.take n) [] t ∧
      t.phase = .idle :=
  h.feed (l.take n) hp hv (Nat.le_trans (List.length_take_le n l) hm) (unterminated_take hnone hn)

/-- An LFE that is empty, idle and in ACC, with an empty FIFO. -/
theorem State.Inv.collects_empty (h : s.Inv) (hst : s.st = .acc) (hlen : s.len = 0) (hfifo : s.bridge.fifo = []) :
    Collects s.params s.bridge [] [] s :=
  ⟨h, hst, rfl, by rw [← hfifo], List.eq_nil_of_length_eq_zero ((sentence_length s).trans hlen)⟩

end

end Sys2Proof.Machine

open Sys2Proof Sys2Proof.Machine

/-- Settles O57: the stream but its last byte collects in the buffer, and the last byte is the match. -/
theorem feedCompletesOnceAtTheTerminator : Obligations.FeedCompletesOnceAtTheTerminator := by
  intro s l h hp hst hlen hfifo hv ⟨h2, hmax, hmatch, hnone⟩
  have hs := h.collects_empty hst hlen hfifo
  have hprefix (n : Nat) (hn : n < l.length) := hs.feedTake (n := n) hp hv hnone (by omega) (by omega)
  refine ⟨?complete, fun n hn => ?shorter⟩
  case complete =>
    obtain ⟨g, b, rfl⟩ := (List.eq_nil_or_concat' l).resolve_left (by rintro rfl; simp at h2)
    obtain ⟨t, hfeed, ht, hphase⟩ := hprefix g.length (by simp)
    rw [List.take_left] at hfeed ht
    obtain ⟨u, hlast, hu⟩ := ht.feedByte hphase hv b
    rw [bigPoll_singleton (by simpa using hmax), if_pos hmatch] at hu
    exact ⟨u, (hfeed [b]).trans (hlast []), hu.st, by rw [← sentence_length, hu.sentence], hu.sentence⟩
  case shorter =>
    obtain ⟨t, hfeed, ht, -⟩ := hprefix n hn
    exact ⟨t, by simpa [feed] using hfeed [], ht.st, ht.sentence⟩

/-- Settles O58: the first MAXLEN bytes fill the buffer, and the one byte left meets the overflow guard. -/
theorem feedOverflowsPastTheBound : Obligations.FeedOverflowsPastTheBound := by
  intro s l h hp hst hlen hfifo hv hlong hnone
  have hs := h.collects_empty hst hlen hfifo
  obtain ⟨t, hfeed, ht, hphase⟩ := hs.feedTake hp hv hnone (Nat.le_refl _) (Nat.le_refl _)
  obtain ⟨b, hb⟩ : ∃ b, l.drop s.params.maxlen = [b] := List.length_eq_one_iff.1 (by rw [List.length_drop]; omega)
  obtain ⟨u, hlast, hu⟩ := ht.feedByte hphase hv b
  have hfull : (l.take s.params.maxlen).length = s.params.maxlen := by rw [List.length_take]; omega
  rw [bigPoll, if_pos hfull, ← hb] at hu
  refine ⟨u, ?_, hu.st, hu.rsp, hu.sentence, congrArg Bridge.fifo hu.bridge⟩
  calc feed l s = feed (l.take s.params.maxlen ++ [b]) s := by rw [← hb, List.take_append_drop]
    _ = feed [b] t := hfeed [b]
    _ = .next u := hlast []

end

section
/-! PROOFS. Every poll cycle whose reads are answered ends (40_poll.md R127, R128): each answered micro-step ends the command or
takes one step off those that are left. -/

namespace Sys2Proof.Machine

/-! ### An answered read -/

theorem busOutcome_meeting_ne_noAck {o : BusOutcome} (s : State) (ho : o ≠ .noAck) : (s.meeting o).busOutcome ≠ .noAck := by
  cases o with
  | ack => simp [State.busOutcome]
  | err took => cases hx : s.params.hasXerr <;> simp [State.busOutcome, hx]
  | noAck => exact absurd rfl ho

/-- LVL whose read is answered leaves QUERY (R113). -/
theorem execLvl_answered {s t : State} (hp : s.phase = .query) (ho : s.busOutcome ≠ .noAck) (h : execLvl s = .next t) :
    t.phase = .idle ∨ t.phase = .drain := by
  obtain ⟨hne, -⟩ | ⟨-, hno, -⟩ | ⟨-, -, he⟩ | ⟨-, -, -, he⟩ | ⟨-, -, -, he⟩ := execLvl_cases s
  · exact absurd hp hne
  · exact absurd hno ho
  all_goals cases h.symm.trans he
  · exact .inl rfl
  · exact .inl rfl
  · exact .inr rfl

/-- PULL whose read is answered ends the command, or takes one off rem and goes on (R115 to R121). -/
theorem execPull_answered {s t : State} (hrem : s.rem ≠ 0) (hp : s.phase = .drain) (ho : s.busOutcome ≠ .noAck)
    (h : execPull s = .next t) : t.phase = .idle ∨ t.phase = .drain ∧ t.rsp = none ∧ t.rem.toNat + 1 = s.rem.toNat := by
  obtain ⟨hne, -⟩ | ⟨-, -, he⟩ | ⟨-, -, hno, -⟩ | ⟨-, -, took, f, d, -, -, he⟩ |
    ⟨-, -, b, f, d, -, -, -, ⟨-, he⟩ | ⟨-, he⟩⟩ := execPull_cases s
  · exact absurd hp hne
  · cases h.symm.trans he; exact .inl rfl
  · exact absurd hno ho
  · cases h.symm.trans he; exact .inl rfl
  · cases h.symm.trans he
    obtain ⟨-, ha⟩ | ⟨-, -, ha⟩ | ⟨-, -, ha⟩ := afterAppend_cases (appendByte b (popped s b f d)) <;> rw [ha]
    · exact .inl rfl
    · exact .inl rfl
    · refine .inr ⟨hp, rfl, ?_⟩
      show (s.rem - 1).toNat + 1 = s.rem.toNat
      bv_omega
  · cases h.symm.trans he

/-- The micro-steps that can be left of a poll cycle: LVL and 255 PULLs, or one PULL for each byte of the batch (R127). -/
def State.stepsLeft (s : State) : Nat :=
  match s.phase with
  | .idle => 0
  | .query => 256
  | .drain => s.rem.toNat

theorem stepsLeft_idle {s : State} (hp : s.phase = .idle) : s.stepsLeft = 0 := by simp only [State.stepsLeft, hp]

theorem stepsLeft_query {s : State} (hp : s.phase = .query) : s.stepsLeft = 256 := by simp only [State.stepsLeft, hp]

theorem stepsLeft_drain {s : State} (hp : s.phase = .drain) : s.stepsLeft = s.rem.toNat := by simp only [State.stepsLeft, hp]

theorem State.Inv.stepsLeft_eq_zero_iff {s : State} (h : s.Inv) : s.stepsLeft = 0 ↔ s.phase = .idle := by
  refine ⟨fun h0 => ?_, stepsLeft_idle⟩
  cases hp : s.phase with
  | idle => rfl
  | query => rw [stepsLeft_query hp] at h0; cases h0
  | drain =>
    have hrem := h.remInDrain hp
    rw [stepsLeft_drain hp] at h0
    bv_omega

/-- An answered micro-step takes at least one of the steps that are left (R127). -/
theorem State.Inv.stepsLeft_lt {s t : State} (h : s.Inv) (hp : s.phase ≠ .idle) (ho : s.busOutcome ≠ .noAck)
    (he : pollingMove s = .next t) : t.stepsLeft < s.stepsLeft := by
  cases hs : s.phase with
  | idle => exact absurd hs hp
  | query =>
    rw [stepsLeft_query hs]
    obtain ht | ht := execLvl_answered hs ho ((pollingMove_query hs).symm.trans he)
    · rw [stepsLeft_idle ht]; decide
    · rw [stepsLeft_drain ht]; exact t.rem.isLt
  | drain =>
    have hpos := Nat.pos_of_ne_zero (mt h.stepsLeft_eq_zero_iff.1 hp)
    obtain ht | ⟨ht, -, hrem⟩ := execPull_answered (h.remInDrain hs) hs ho ((pollingMove_drain hs).symm.trans he)
    · rwa [stepsLeft_idle ht]
    · rw [stepsLeft_drain hs, stepsLeft_drain ht]; omega

/-! ### The bytes kept -/

/-- A state that differs from s by the write of the cell at len, and by len one more, holds one byte more (R118). -/
theorem State.Inv.sentence_of_write {s t : State} {b : Byte} (h : s.Inv) (hlen : t.len = s.len + 1)
    (hbuf : t.buf = s.buf.write s.len b) : t.sentence = s.sentence ++ [b] := by
  rw [← sentence_appendByte]
  exact sentence_congr hlen fun i hi => byteAt_congr (by rw [hbuf, appendByte_buf]) (appendByte_filled h b hi)

/-- Every operation but TAKE and RESET keeps the sentence as the beginning of the next (R23). -/
theorem Effect.sentence_prefix {i : Instr} {s t : State} (he : Effect s i t) (h : s.Inv) (hi : ¬(i = .take ∨ i = .reset)) :
    ∃ more, t.sentence = s.sentence ++ more := by
  obtain ⟨hbuf, hlen⟩ | ⟨-, hlen, b, hbuf⟩ := he.buffer
  · exact ⟨[], by rw [h.sentence_eq (hlen.resolve_right fun hr => hi hr.1) hbuf, List.append_nil]⟩
  · exact ⟨[b], h.sentence_of_write hlen hbuf⟩

theorem not_take_or_reset_pollingInstr (p : Phase) : ¬(pollingInstr p = .take ∨ pollingInstr p = .reset) := by
  cases p <;> simp [pollingInstr]

/-! ### The cycle -/

/-- A command that has ended with a response (R13, R24). -/
structure Ended (s : State) : Prop where
  phase : s.phase = .idle
  rsp : ∃ r, s.rsp = some r
  rem : s.rem = 0

theorem State.Inv.ended {s : State} (h : s.Inv) (hp : s.phase = .idle) (hr : s.rsp ≠ none) : Ended s :=
  ⟨hp, Option.ne_none_iff_exists'.1 hr, h.remOutsideDrain (by simp [hp])⟩

/-- Under the invariant a busy engine moves; where it comes to rest it has answered (R41). -/
theorem State.Inv.busyMove {s : State} (h : s.Inv) (hp : s.phase ≠ .idle) (o : BusOutcome) :
    ∃ t, pollingMove (s.meeting o) = .next t ∧ t.Inv ∧ (t.phase = .idle → t.rsp ≠ none) := by
  obtain ⟨t, hnext, ht, -⟩ := h.pollingMove_next o
  exact ⟨t, hnext, ht, (pollingMove_effect hnext).rsp_ne_none (pollingInstr_of_busy hp) hp⟩

/-- An engine with enough answers ends its command, by induction over the answers. -/
theorem State.Inv.runEngine_ends {s : State} (h : s.Inv) (hr : s.phase = .idle → s.rsp ≠ none) (os : List BusOutcome)
    (hos : ∀ o ∈ os, o ≠ .noAck) (hn : s.stepsLeft ≤ os.length) :
    ∃ t more, runEngine os s = .next t ∧ Ended t ∧ t.sentence = s.sentence ++ more := by
  induction os generalizing s with
  | nil =>
    have hp := h.stepsLeft_eq_zero_iff.1 (Nat.le_zero.1 hn)
    exact ⟨s, [], runEngine_idle _ hp, h.ended hp (hr hp), (List.append_nil _).symm⟩
  | cons o os ih =>
    by_cases hp : s.phase = .idle
    · exact ⟨s, [], runEngine_idle _ hp, h.ended hp (hr hp), (List.append_nil _).symm⟩
    · obtain ⟨ho, hos⟩ := List.forall_mem_cons.1 hos
      obtain ⟨t, hnext, ht, hrsp⟩ := h.busyMove hp o
      have hlt : t.stepsLeft < s.stepsLeft :=
        (h.meeting o).stepsLeft_lt hp (busOutcome_meeting_ne_noAck s ho) hnext
      obtain ⟨u, more', hrun, hu, hmore'⟩ := ih ht hrsp hos (Nat.le_of_lt_succ (Nat.lt_of_lt_of_le hlt hn))
      obtain ⟨more, hmore⟩ : ∃ more, t.sentence = s.sentence ++ more :=
        (pollingMove_effect hnext).sentence_prefix (h.meeting o) (not_take_or_reset_pollingInstr _)
      exact ⟨u, more ++ more', (runEngine_busy os hp hnext).trans hrun, hu, by rw [hmore', hmore, List.append_assoc]⟩

/-- POLL accepted begins a poll cycle or answers at once (R111, R122). -/
theorem execPoll_next {s : State} (hp : s.phase = .idle) :
    ∃ t, execPoll s = .next t ∧ (t.phase = .idle → t.rsp ≠ none) ∧ t.stepsLeft ≤ 256 := by
  by_cases hst : s.st = .acc
  · exact ⟨_, execPoll_acc hp hst, fun ht => (by cases ht), Nat.le_refl _⟩
  · exact ⟨_, execPoll_of_ne_acc hp rfl hst, fun _ hr => (by cases hr),
      (stepsLeft_idle (s := s.quiet.respond _) hp).trans_le (Nat.zero_le _)⟩

/-- A whole POLL with an answer for every read it can make ends (R127). -/
theorem State.Inv.pollCycle_ends {s : State} (h : s.Inv) (hp : s.phase = .idle) {os : List BusOutcome}
    (hn : os.length = 256) (hos : ∀ o ∈ os, o ≠ .noAck) :
    ∃ t more, pollCycle os s = .next t ∧ Ended t ∧ t.sentence = s.sentence ++ more := by
  obtain ⟨q, hpoll, hrsp, hleft⟩ := execPoll_next hp
  have heffect : Effect s .poll q := exec_effect hpoll
  obtain ⟨more, hmore⟩ := heffect.sentence_prefix h (by decide)
  obtain ⟨t, more', hrun, ht, hmore'⟩ := (heffect.inv h).runEngine_ends hrsp os hos (by rwa [hn])
  exact ⟨t, more ++ more', (pollCycle_eq hpoll).trans hrun, ht, by rw [hmore', hmore, List.append_assoc]⟩

end Sys2Proof.Machine

open Sys2Proof Sys2Proof.Machine

/-- Settles O54: the answers suffice for the steps that are left after POLL's accept step, and each answered PULL takes one. -/
theorem pollCycleAlwaysEnds : Obligations.PollCycleAlwaysEnds := by
  refine ⟨fun s os h hp hn hos => ?cycle, fun s h hp ho => ?pull⟩
  case cycle =>
    obtain ⟨t, more, hcycle, ⟨hphase, ⟨r, hr⟩, hrem⟩, hmore⟩ := h.pollCycle_ends hp hn hos
    exact ⟨t, r, more, hcycle, hphase, hr, hrem, hmore⟩
  case pull =>
    have hbusy : s.phase ≠ .idle := by simp [hp]
    obtain ⟨t, hnext, ht, hrsp⟩ := h.busyMove hbusy s.outcome
    have hpull : execPull s = .next t := (pollingMove_drain hp).symm.trans hnext
    refine ⟨t, hpull, (execPull_answered (h.remInDrain hp) hp ho hpull).imp_left fun hidle => ?_⟩
    obtain ⟨hphase, hr, hrem⟩ := ht.ended hidle (hrsp hidle)
    exact ⟨hphase, Option.isSome_iff_exists.2 hr, hrem⟩

end

section
/-! PROOFS. TAKE, NOP and RSVD from IDLE (41_take_nop.md R141 to R145). -/

namespace Sys2Proof.Machine

/-- R82: the response "code of st" has the code of st. -/
@[simp] theorem code_response (f : Framing) : f.response.code = f.code := by
  cases f with
  | acc => rfl
  | cmp => rfl
  | ovf => rfl

/-- A command whose step only answers gives the code of st and clears the other outputs (R142, R144, R145). -/
theorem exec_hostCommand_answers {i : Instr} {s : State} (hi : HostCommand i) (hp : s.phase = .idle)
    (hstep : commandStep i s.quiet = s.quiet.respondStatus) : exec i s = .next (s.quiet.respond s.st.response) := by
  rw [exec_hostCommand hi, accept_idle _ hp, hstep, State.respondStatus, quiet_st]

/-- TAKE accepted outside CMP answers the code of st (R142). -/
theorem exec_take_of_ne_cmp {s : State} {f : Framing} (hp : s.phase = .idle) (hst : s.st = f) (hf : f ≠ .cmp) :
    exec .take s = .next (s.quiet.respond f.response) := by
  subst hst
  obtain ⟨hc, -⟩ | ⟨-, hstep⟩ := takeStep_cases s.quiet
  · exact absurd hc hf
  · exact exec_hostCommand_answers (.inr (.inr (.inl rfl))) hp hstep

/-- NOP answers the code of st (R144). -/
theorem exec_nop_idle {s : State} (hp : s.phase = .idle) : exec .nop s = .next (s.quiet.respond s.st.response) :=
  exec_hostCommand_answers (.inl rfl) hp rfl

/-- R145: RSVD is NOP. -/
theorem exec_rsvd_eq_exec_nop (s : State) : exec .rsvd s = exec .nop s := by
  rw [exec_hostCommand (.inr (.inr (.inr rfl))), exec_hostCommand (.inl rfl)]
  rfl

/-- In CMP the valid bytes are two or more and end in T0, T1 (R14, R35). -/
theorem State.Inv.cmp_endsInTerminator {s : State} (h : s.Inv) (hc : s.st = .cmp) :
    2 ≤ s.len ∧ s.byteAt (s.len - 2) = Config.t0 ∧ s.byteAt (s.len - 1) = Config.t1 :=
  (terminatorMatch_iff s.byteAt s.len).1 (h.cmpTerminated hc).1

/-- No bytes are left to pull in IDLE (R24, R173). -/
theorem State.Inv.rem_eq_zero_of_idle {s : State} (h : s.Inv) (hp : s.phase = .idle) : s.rem = 0 :=
  h.remOutsideDrain (by rw [hp]; decide)

end Sys2Proof.Machine

open Sys2Proof Sys2Proof.Machine

/-- Settles O8: the next state is that of TAKE's emission in CMP, and the invariant says what the emitted bytes end in. -/
theorem takeEmitsTheSentence : Obligations.TakeEmitsTheSentence := by
  intro s hp hc
  refine ⟨execTake_cmp hp hc, fun h => ?_⟩
  obtain ⟨hlen, ht0, ht1⟩ := h.cmp_endsInTerminator hc
  exact ⟨hlen, ht0, ht1, h.rem_eq_zero_of_idle hp⟩

/-- Settles O9: in ACC and in OVF a TAKE only answers the code of st. -/
theorem takeOutsideCompleteChangesNothing : Obligations.TakeOutsideCompleteChangesNothing := by
  intro s hp
  exact ⟨fun hst => exec_take_of_ne_cmp hp hst (by decide), fun hst => exec_take_of_ne_cmp hp hst (by decide)⟩

/-- Settles O10: the response is the one that has the code of st. -/
theorem nopAnswersTheStatus : Obligations.NopAnswersTheStatus :=
  fun s hp => ⟨s.st.response, exec_nop_idle hp, code_response s.st⟩

/-- Settles O11: RSVD is NOP in every state, so it answers as NOP does. -/
theorem rsvdBehavesAsNop : Obligations.RsvdBehavesAsNop := by
  refine fun s => ⟨exec_rsvd_eq_exec_nop s, fun hp => ?_⟩
  rw [exec_rsvd_eq_exec_nop]
  exact nopAnswersTheStatus s hp

end

section
/-! PROOFS. The bus transactions of software outside the block and the producer's PUSH (42_fifo_transactions.md R156 to R164): the
register an offset selects in each view, and the next state of a read and of a write under each outcome. -/

namespace Sys2Proof.Machine

/-! ### The register map in each view (R30, R52) -/

section
variable {c : Bridge}

theorem registerAtZero_normal (h : c.latchAccess = false) : c.registerAtZero = .holding := by
  rw [Bridge.registerAtZero, h]; rfl

theorem registerAt_zero_normal (h : c.latchAccess = false) : c.registerAt 0x0 = some .holding :=
  congrArg some (registerAtZero_normal h)

theorem registerAt_zero_latch (h : c.latchAccess = true) : c.registerAt 0x0 = some .divisorLow :=
  congrArg some (if_pos h)

theorem registerAt_one_normal (h : c.latchAccess = false) : c.registerAt 0x1 = some .unlisted := by
  simp [Bridge.registerAt, h]

theorem registerAt_one_latch (h : c.latchAccess = true) : c.registerAt 0x1 = some .divisorHigh :=
  congrArg some (if_pos h)

theorem registerAt_two_normal (h : c.latchAccess = false) : c.registerAt 0x2 = some .fifoControl := by
  simp [Bridge.registerAt, h]

theorem registerAt_two_latch (h : c.latchAccess = true) : c.registerAt 0x2 = some .enhancedFeature := if_pos h

theorem registerAt_seven : c.registerAt 0x7 = if c.triggerValid then some .triggerLevel else none := rfl

end

/-! ### Write transactions under the outcomes other than an acknowledgement (R159, R236) -/

theorem memWrite_err {s : State} {took : Bool} (reg : BridgeRegister) (off : Offset) (v : Byte) (h : s.busOutcome = .err took) :
    s.memWrite reg off v =
      { s with
        bridge := if took then s.bridge.writeRegister reg v else s.bridge
        bus := some ⟨physicalByte false off, .failed⟩ } := by
  simp only [State.memWrite, h]

theorem memWrite_noAck {s : State} (reg : BridgeRegister) (off : Offset) (v : Byte) (h : s.busOutcome = .noAck) :
    s.memWrite reg off v = s := by
  simp only [State.memWrite, h]

/-! ### REGRD and REGWR of a register that is there (R158, R159) -/

section
variable {s : State} {r : Offset} {reg : BridgeRegister} {v : Byte}

theorem exec_regrd (hr : s.bridge.registerAt r = some reg) : exec (.regrd r) s = .next (s.offClock.memRead reg r).2 := by
  simp only [exec, execRegrd, hr]

theorem exec_regwr (hr : s.bridge.registerAt r = some reg) : exec (.regwr r v) s = .next (s.offClock.memWrite reg r v) := by
  simp only [exec, execRegwr, hr]

theorem exec_regrd_refused (hr : s.bridge.registerAt r = none) : exec (.regrd r) s = .refused (.noRegister r) := by
  simp only [exec, execRegrd, hr]

theorem exec_regwr_refused (hr : s.bridge.registerAt r = none) : exec (.regwr r v) s = .refused (.noRegister r) := by
  simp only [exec, execRegwr, hr]

theorem exec_regrd_ack (ho : s.busOutcome = .ack) (hr : s.bridge.registerAt r = some reg) :
    exec (.regrd r) s = .next { (s.offClock.readRegister reg).2 with
      bus := some ⟨physicalByte true r, .data (s.offClock.readRegister reg).1⟩ } := by
  rw [exec_regrd hr, memRead_ack _ _ (by rwa [busOutcome_offClock])]

/-- A register whose read only gives a byte (R158, log 16). -/
theorem exec_regrd_stored (ho : s.busOutcome = .ack) (hr : s.bridge.registerAt r = some reg)
    (hread : s.offClock.readRegister reg = (v, s.offClock)) :
    exec (.regrd r) s = .next { s with emission := none, bus := some ⟨physicalByte true r, .data v⟩ } := by
  rw [exec_regrd_ack ho hr, hread]; rfl

/-- A register whose byte nobody can predict (log 8). -/
theorem exec_regrd_draw (ho : s.busOutcome = .ack) (hr : s.bridge.registerAt r = some reg)
    (hread : s.offClock.readRegister reg = s.offClock.draw) :
    exec (.regrd r) s = .next { s with
      emission := none, bus := some ⟨physicalByte true r, .data (Config.freeByte s.draws)⟩, draws := s.draws + 1 } := by
  rw [exec_regrd_ack ho hr, hread]; rfl

theorem exec_regwr_ack (ho : s.busOutcome = .ack) (hr : s.bridge.registerAt r = some reg) :
    exec (.regwr r v) s = .next { s with
      bridge := s.bridge.writeRegister reg v, emission := none, bus := some ⟨physicalByte false r, .written⟩ } := by
  rw [exec_regwr hr, memWrite_ack _ _ _ (by rwa [busOutcome_offClock])]; rfl

/-- A register that holds what was written, under an offset that still selects it after the write (log 16). -/
theorem exec_regrd_of_exec_regwr {t : State} (ho : s.busOutcome = .ack) (hr : s.bridge.registerAt r = some reg)
    (hkeeps : (s.bridge.writeRegister reg v).registerAt r = some reg)
    (hholds : ∀ u : State, { u with bridge := s.bridge.writeRegister reg v }.readRegister reg =
      (v, { u with bridge := s.bridge.writeRegister reg v }))
    (h : exec (.regwr r v) s = .next t) :
    ∃ u, exec (.regrd r) t = .next u ∧ u.bus = some ⟨physicalByte true r, .data v⟩ := by
  cases h.symm.trans (exec_regwr_ack ho hr)
  exact ⟨_, exec_regrd_stored ((busOutcome_congr rfl rfl).trans ho) hkeeps (hholds s.offClock), rfl⟩

end

/-! ### Failed reads (D16) -/

/-- A pop leaves the FIFO without its head, if it had one (R157, D29). -/
theorem popFifo_snd (s : State) :
    ∃ d, s.popFifo.2 = { s with bridge := { s.bridge with fifo := s.bridge.fifo.tail }, draws := d } := by
  obtain ⟨f, d, hpop, -⟩ := popFifo_frame s
  have hf : f = s.bridge.fifo.tail := by rw [← popFifo_fifo, hpop]
  exact ⟨d, hf ▸ hpop⟩

/-- What a failed read leaves: the FIFO without its head only if the read took effect. -/
theorem memRead_err_frame {s : State} {took : Bool} (reg : BridgeRegister) (off : Offset) (h : s.busOutcome = .err took) :
    ∃ f d, (s.memRead reg off).2 = { s with
        bridge := { s.bridge with fifo := f }, draws := d, bus := some ⟨physicalByte true off, .failed⟩ } ∧
      (f = s.bridge.fifo ∨ f = s.bridge.fifo.tail) ∧ (took = false → f = s.bridge.fifo ∧ d = s.draws) := by
  rw [memRead_err _ _ h]
  cases took
  case false => exact ⟨s.bridge.fifo, s.draws, rfl, .inl rfl, fun _ => ⟨rfl, rfl⟩⟩
  case true =>
    obtain ⟨f, d, hread, hf⟩ := readRegister_frame reg s
    exact ⟨f, d, by rw [if_pos rfl, hread], hf, nofun⟩

/-- A failed pop takes the head exactly if it took effect (R157, D16). -/
theorem memRead_holding_err {s : State} {took : Bool} (off : Offset) (h : s.busOutcome = .err took) :
    ∃ d, (s.memRead .holding off).2 = { s with
      bridge := { s.bridge with fifo := if took then s.bridge.fifo.tail else s.bridge.fifo }, draws := d,
      bus := some ⟨physicalByte true off, .failed⟩ } := by
  rw [memRead_err _ _ h]
  cases took
  case false => exact ⟨s.draws, rfl⟩
  case true =>
    obtain ⟨d, hpop⟩ := popFifo_snd s
    exact ⟨d, by rw [if_pos rfl, if_pos rfl, State.readRegister, hpop]⟩

/-! ### PUSH into the FIFO (R161, R162) -/

theorem push_of_room {c : Bridge} (b : Byte) (h : c.fifo.length < Config.fifoDepth) :
    c.push b = { c with fifo := c.fifo ++ [b] } := if_pos h

theorem push_full_dropNewest {c : Bridge} (b : Byte) (h : Config.fifoDepth ≤ c.fifo.length)
    (hp : Config.fifoFullPolicy = .dropNewest) : c.push b = c := by
  rw [Bridge.push, if_neg (Nat.not_lt.2 h), hp]

theorem push_full_dropOldest {c : Bridge} (b : Byte) (h : Config.fifoDepth ≤ c.fifo.length)
    (hp : Config.fifoFullPolicy = .dropOldest) : c.push b = { c with fifo := c.fifo.tail ++ [b] } := by
  rw [Bridge.push, if_neg (Nat.not_lt.2 h), hp, ← List.drop_one]

end Sys2Proof.Machine

open Sys2Proof Sys2Proof.Machine

/-- Settles O25: an occupancy within FIFO_DEPTH fits the byte that RD_RXLVL returns. -/
theorem rdRxlvlReturnsTheOccupancy : Obligations.RdRxlvlReturnsTheOccupancy := by
  intro s hdepth
  refine ⟨fun ho => ⟨BitVec.ofNat 8 s.bridge.fifo.length, ?toNat, ?read⟩, fun took ho => ?failed⟩
  case toNat => exact (BitVec.toNat_ofNat _ _).trans (Nat.mod_eq_of_lt (lt_of_le_fifoDepth hdepth))
  case read => rw [exec, execRdRxlvl, fifoLevel_ack (by rwa [busOutcome_offClock])]; rfl
  case failed => rw [exec, execRdRxlvl, fifoLevel_err (took := took) (by rwa [busOutcome_offClock])]; rfl

/-- Settles O26: in the normal view offset 0x00 is the holding register, and its read pops. -/
theorem rdRhrPopsTheHead : Obligations.RdRhrPopsTheHead := by
  intro s hv
  refine ⟨fun b rest ho hf => ?head, fun ho hf => ?empty, fun took ho => ?failed⟩
  case head => rw [exec, execRdRhr, fifoPop_ack_cons (s := s.offClock) (by rwa [busOutcome_offClock]) hv hf]; rfl
  case empty => rw [exec, execRdRhr, fifoPop_ack_nil (s := s.offClock) (by rwa [busOutcome_offClock]) hv hf]; rfl
  case failed =>
    obtain ⟨d, hread⟩ := memRead_holding_err (s := s.offClock) (took := took) 0x0 (by rwa [busOutcome_offClock])
    refine ⟨_, d, rfl, ?_⟩
    rw [exec, execRdRhr, State.fifoPop, offClock_bridge, registerAtZero_normal hv, hread]
    rfl

/-- Settles O27: each offset selects its register in the view, and a read of it gives its byte or a draw. -/
theorem regrdReturnsTheSelectedRegister : Obligations.RegrdReturnsTheSelectedRegister := by
  intro s ho
  refine ⟨fun r v hrv => ?control, fun hv r v hrv => ?latch, fun hv => ?normal, ?trigger, fun r hr => ?free, rfl, rfl⟩
  case control =>
    simp only [List.mem_cons, Prod.mk.injEq, List.not_mem_nil, or_false] at hrv
    obtain ⟨rfl, rfl⟩ | ⟨rfl, rfl⟩ := hrv
    · exact exec_regrd_stored (reg := .lineControl) ho rfl rfl
    · exact exec_regrd_stored (reg := .modemControl) ho rfl rfl
  case latch =>
    simp only [List.mem_cons, Prod.mk.injEq, List.not_mem_nil, or_false] at hrv
    obtain ⟨rfl, rfl⟩ | ⟨rfl, rfl⟩ | ⟨rfl, rfl⟩ := hrv
    · exact exec_regrd_stored ho (registerAt_zero_latch hv) rfl
    · exact exec_regrd_stored ho (registerAt_one_latch hv) rfl
    · exact exec_regrd_stored ho (registerAt_two_latch hv) rfl
  case normal => exact exec_regrd_stored ho (registerAt_two_normal hv) rfl
  case trigger =>
    split
    next hvalid => exact exec_regrd_stored ho (registerAt_seven.trans (if_pos hvalid)) rfl
    next hvalid => exact exec_regrd_refused (registerAt_seven.trans (if_neg hvalid))
  case free =>
    obtain rfl | rfl | rfl | ⟨rfl, hv⟩ := hr
    · exact exec_regrd_draw (reg := .modemStatus) ho rfl rfl
    · exact exec_regrd_draw (reg := .lineStatus) ho rfl rfl
    · exact exec_regrd_draw (reg := .transmitLevel) ho rfl rfl
    · exact exec_regrd_draw ho (registerAt_one_normal hv) rfl

/-- Settles O28: each offset selects its register in the view, and the write changes that register and no other. -/
theorem regwrWritesTheSelectedRegister : Obligations.RegwrWritesTheSelectedRegister := by
  rintro s v ho _ rfl
  refine ⟨exec_regwr_ack (reg := .lineControl) ho rfl, exec_regwr_ack (reg := .modemControl) ho rfl, fun r hr => ?dropped,
    ?trigger, fun hv => ⟨?divisorLow, ?divisorHigh, ?enhanced⟩, fun hv => ⟨?transmit, ?fifoControl⟩,
    fifoControlResets_stored v⟩
  case dropped =>
    obtain rfl | rfl | rfl | rfl | ⟨rfl, hv⟩ := hr
    · exact exec_regwr_ack (reg := .modemStatus) ho rfl
    · exact exec_regwr_ack (reg := .lineStatus) ho rfl
    · exact exec_regwr_ack (reg := .transmitLevel) ho rfl
    · exact exec_regwr_ack (reg := .receiveLevel) ho rfl
    · exact exec_regwr_ack ho (registerAt_one_normal hv)
  case trigger =>
    split
    next hvalid => exact exec_regwr_ack ho (registerAt_seven.trans (if_pos hvalid))
    next hvalid => exact exec_regwr_refused (registerAt_seven.trans (if_neg hvalid))
  case divisorLow => exact exec_regwr_ack ho (registerAt_zero_latch hv)
  case divisorHigh => exact exec_regwr_ack ho (registerAt_one_latch hv)
  case enhanced => exact exec_regwr_ack ho (registerAt_two_latch hv)
  case transmit => exact exec_regwr_ack ho (registerAt_zero_normal hv)
  case fifoControl => exact exec_regwr_ack ho (registerAt_two_normal hv)

/-- Settles O29: whether a failed transaction had its effect on the device is its outcome's `took`. -/
theorem failedRegisterTransactionIsReported : Obligations.FailedRegisterTransactionIsReported := by
  intro s r reg v took ho hr
  have hoff : s.offClock.busOutcome = .err took := by rwa [busOutcome_offClock]
  refine ⟨?read, ?write⟩
  case read =>
    obtain ⟨f, d, hread, hf, htook⟩ := memRead_err_frame reg r hoff
    exact ⟨f, d, hf, htook, by rw [exec_regrd hr, hread]; rfl⟩
  case write => rw [exec_regwr hr, memWrite_err _ _ _ hoff]; rfl

/-- Settles O31: such a transaction writes the bridge chip, the draw counter and the bus output, and only a REGWR a register. -/
theorem foreignTransactionsFrame : Obligations.ForeignTransactionsFrame := by
  intro i s t hi h
  obtain ⟨r, he⟩ | ⟨c, d, x, he, hc⟩ := execForeign_cases hi s <;> cases h.symm.trans he
  refine ⟨rfl, rfl, fun _ => rfl, rfl, rfl, rfl, rfl, rfl, rfl, rfl, fun hread => hc.resolve_right ?_⟩
  rintro ⟨r, v, -, hwrite, -⟩
  exact hread r v hwrite

/-- Settles O32: the write leaves the offset's register selected (a divisor latch's write leaves line-control), and the register
holds the byte. -/
theorem registerReadsBackWhatWasWritten : Obligations.RegisterReadsBackWhatWasWritten := by
  rintro s t r v ho (rfl | rfl | ⟨hv, rfl | rfl⟩) h
  · exact exec_regrd_of_exec_regwr (reg := .lineControl) ho rfl rfl (fun _ => rfl) h
  · exact exec_regrd_of_exec_regwr (reg := .modemControl) ho rfl rfl (fun _ => rfl) h
  · exact exec_regrd_of_exec_regwr (reg := .divisorLow) ho (registerAt_zero_latch hv) (registerAt_zero_latch hv) (fun _ => rfl) h
  · exact exec_regrd_of_exec_regwr (reg := .divisorHigh) ho (registerAt_one_latch hv) (registerAt_one_latch hv) (fun _ => rfl) h

/-- Settles O33: the FIFO has room, or the one policy of the implementation decides. -/
theorem pushAppendsAtTheTail : Obligations.PushAppendsAtTheTail := by
  refine ⟨fun s b hroom => ?room, ?full⟩
  case room => rw [exec, execPush, push_of_room b hroom]; rfl
  case full =>
    cases hp : Config.fifoFullPolicy with
    | dropNewest => exact .inl fun s b hfull => by rw [exec, execPush, push_full_dropNewest b hfull hp]; rfl
    | dropOldest => exact .inr fun s b hfull => by rw [exec, execPush, push_full_dropOldest b hfull hp]; rfl

end

section
/-! PROOFS. The engine's own bus transactions (42_fifo_transactions.md R160, 60_exceptions.md R188): the address that f_addr shows, the
transaction a step completes, and the byte a PULL takes from an empty FIFO. -/

namespace Sys2Proof.Machine

/-! ### The address of the read that is due (R42, R85) -/

theorem fAddr_query {s : State} (hp : s.phase = .query) : fAddr s = some 0xC8 := if_pos hp

theorem fAddr_pop {s : State} (hp : s.phase = .drain) (hl : s.len ≠ s.params.maxlen) : fAddr s = some 0x80 := by
  rw [fAddr, if_neg (by simp [hp]), if_pos ((popOutstanding_iff s).2 ⟨hp, hl⟩)]; rfl

theorem fAddr_cases {s : State} {a : Byte} (h : fAddr s = some a) :
    s.phase = .query ∧ a = 0xC8 ∨ s.phase = .drain ∧ a = 0x80 := by
  unfold fAddr at h
  split at h
  next hp => exact .inl ⟨hp, (Option.some.inj h).symm⟩
  next =>
    split at h
    next hpop => exact .inr ⟨((popOutstanding_iff s).1 hpop).1, (Option.some.inj h).symm⟩
    next => cases h

/-! ### The transaction a micro-step completes (R160) -/

@[simp] theorem afterAppend_bus (a : State) : (afterAppend a).bus = a.bus := by
  obtain ⟨_, _, _, _, h⟩ := afterAppend_frame a; rw [h]

/-- A transaction that LVL completes is the level read that was due. -/
theorem execLvl_bus {s t : State} {x : BusTxn} (h : execLvl s = .next t) (hx : t.bus = some x) :
    s.phase = .query ∧ x.addr = 0xC8 ∧ x.result ≠ .written := by
  obtain ⟨-, he⟩ | ⟨-, -, he⟩ | ⟨hp, -, he⟩ | ⟨hp, -, -, he⟩ | ⟨hp, -, -, he⟩ := execLvl_cases s <;>
    cases h.symm.trans he <;> cases hx
  all_goals exact ⟨hp, rfl, nofun⟩

/-- A transaction that PULL completes is the pop that was due. -/
theorem execPull_bus {s t : State} {x : BusTxn} (h : execPull s = .next t) (hx : t.bus = some x) :
    s.phase = .drain ∧ s.len ≠ s.params.maxlen ∧ x.addr = 0x80 ∧ x.result ≠ .written := by
  obtain ⟨-, he⟩ | ⟨-, -, he⟩ | ⟨-, -, -, he⟩ | ⟨hp, hl, _, _, _, -, -, he⟩ |
    ⟨hp, hl, _, _, _, -, -, -, ⟨-, he⟩ | ⟨-, he⟩⟩ := execPull_cases s <;> cases h.symm.trans he
  case inr.inr.inr.inr.inl =>
    rw [afterAppend_bus] at hx
    cases hx
    exact ⟨hp, hl, rfl, nofun⟩
  all_goals cases hx
  exact ⟨hp, hl, rfl, nofun⟩

end Sys2Proof.Machine

open Sys2Proof Sys2Proof.Machine

/-- Settles O19: the pop gives a draw and leaves the FIFO empty, and the end of the PULL decides on that byte. -/
theorem pullOnEmptyFifoAppendsADraw : Obligations.PullOnEmptyFifoAppendsADraw := by
  intro s hp hl ho hv hf a ha
  have hpop := fifoPop_ack_nil (s := s.quiet) (by rwa [busOutcome_quiet]) hv hf
  rw [← afterAppend_eq, ha]
  exact execPull_appends hp hl hpop hl

/-- Settles O24: f_addr follows the phase; host commands and RESET complete no transaction, and LVL and PULL the read that is due. -/
theorem engineDrivesOnlyTwoAddresses : Obligations.EngineDrivesOnlyTwoAddresses := by
  refine ⟨fun s a h => fAddr_cases h, fun s a h => ?port, fun i s t x hi h hx => ?txn⟩
  case port =>
    unfold PortState.fAddr at h
    split at h
    · exact (fAddr_cases h).imp And.right And.right
    · cases h
  case txn =>
    obtain hc | rfl | rfl | rfl : HostCommand i ∨ i = .lvl ∨ i = .pull ∨ i = .reset := by simpa only [or_assoc] using hi
    · cases h.symm.trans (exec_hostCommand hc s)
      cases hx.symm.trans (accept_commandStep_frame hc s).2
    · obtain ⟨hp, haddr, hres⟩ := execLvl_bus h hx
      exact ⟨.inl ⟨rfl, haddr⟩, haddr ▸ fAddr_query hp, hres⟩
    · obtain ⟨hp, hl, haddr, hres⟩ := execPull_bus h hx
      exact ⟨.inr ⟨rfl, haddr⟩, haddr ▸ fAddr_pop hp hl, hres⟩
    · cases h; cases hx

end

section
/-! PROOFS. A port without HAS_XERR (42_fifo_transactions.md R163, 10_state.md R40): no transaction fails, so none is reported. -/

namespace Sys2Proof.Machine

/-- A step shows no failure: no XERR that was not shown before it, and no failed transaction. -/
structure ShowsNoFailure (s t : State) : Prop where
  rsp : s.rsp ≠ some .xerr → t.rsp ≠ some .xerr
  bus : ∀ a, t.bus ≠ some ⟨a, .failed⟩

/-- Without HAS_XERR no transaction meets an error, whatever the environment chooses (log 3). -/
theorem busOutcome_ne_err {s : State} (h : s.params.hasXerr = false) (took : Bool) : s.busOutcome ≠ .err took := by
  unfold State.busOutcome
  cases s.outcome <;> simp [h]

theorem response_ne_xerr (f : Framing) : f.response ≠ .xerr := by cases f <;> decide

/-- The end of a PULL answers SENT, NONE or nothing (R119 to R121). -/
theorem afterAppend_rsp_ne_xerr {a : State} (ha : a.rsp = none) : (afterAppend a).rsp ≠ some .xerr := by
  obtain ⟨-, h⟩ | ⟨-, -, h⟩ | ⟨-, -, h⟩ := afterAppend_cases a <;> rw [h]
  · exact nofun
  · exact nofun
  · rw [ha]; nofun

theorem showsNoFailure_hostCommand {i : Instr} (hi : HostCommand i) (s : State) :
    ShowsNoFailure s (s.accept (commandStep i)) := by
  refine ⟨fun _ => ?_, fun _ => by rw [(accept_commandStep_frame hi s).2]; nofun⟩
  by_cases hp : s.phase = .idle
  · rw [accept_idle _ hp]
    obtain h | ⟨-, h⟩ | ⟨-, h⟩ := commandStep_cases hi s.quiet <;> rw [h]
    · exact mt Option.some.inj (response_ne_xerr s.st)
    · exact nofun
    · exact nofun
  · rw [accept_busy _ hp]; nofun

section
variable {s t : State} (hno : ∀ took, s.busOutcome ≠ .err took)
include hno

theorem showsNoFailure_execLvl (h : execLvl s = .next t) : ShowsNoFailure s t := by
  obtain ⟨-, he⟩ | ⟨-, -, he⟩ | ⟨-, ⟨took, ho⟩, -⟩ | ⟨-, -, -, he⟩ | ⟨-, -, -, he⟩ := execLvl_cases s
  case inr.inr.inl => exact absurd ho (hno took)
  all_goals cases h.symm.trans he
  all_goals exact ⟨fun _ => nofun, fun _ => nofun⟩

theorem showsNoFailure_execPull (h : execPull s = .next t) : ShowsNoFailure s t := by
  obtain ⟨-, he⟩ | ⟨-, -, he⟩ | ⟨-, -, -, he⟩ | ⟨-, -, took, _, _, ho, -, -⟩ |
    ⟨-, -, _, _, _, -, -, -, ⟨-, he⟩ | ⟨-, he⟩⟩ := execPull_cases s
  case inr.inr.inr.inl => exact absurd ho (hno took)
  case inr.inr.inr.inr.inl =>
    cases h.symm.trans he
    exact ⟨fun _ => afterAppend_rsp_ne_xerr rfl, fun _ hx => nomatch (afterAppend_bus _).symm.trans hx⟩
  all_goals cases h.symm.trans he
  all_goals exact ⟨fun _ => nofun, fun _ => nofun⟩

theorem memRead_bus_ne_failed (hb : s.bus = none) (reg : BridgeRegister) (off : Offset) (a : Byte) :
    (s.memRead reg off).2.bus ≠ some ⟨a, .failed⟩ := by
  obtain ⟨-, h⟩ | ⟨took, ho, -⟩ | ⟨-, h⟩ := memRead_cases reg off s
  · rw [h]; nofun
  · exact absurd ho (hno took)
  · rw [h, hb]; nofun

theorem memWrite_bus_ne_failed (hb : s.bus = none) (reg : BridgeRegister) (off : Offset) (v a : Byte) :
    (s.memWrite reg off v).bus ≠ some ⟨a, .failed⟩ := by
  cases ho : s.busOutcome with
  | ack => rw [memWrite_ack _ _ _ ho]; nofun
  | err took => exact absurd ho (hno took)
  | noAck => rw [memWrite_noAck _ _ _ ho, hb]; nofun

theorem exec_foreignAccess_bus_ne_failed {i : Instr} (hi : ForeignAccess i) (h : exec i s = .next t) (a : Byte) :
    t.bus ≠ some ⟨a, .failed⟩ := by
  have hoff (took : Bool) : s.offClock.busOutcome ≠ .err took := by rw [busOutcome_offClock]; exact hno took
  obtain rfl | rfl | ⟨r, rfl⟩ | ⟨r, v, rfl⟩ := hi
  · cases h; exact memRead_bus_ne_failed hoff rfl _ _ a
  · cases h; exact memRead_bus_ne_failed hoff rfl _ _ a
  · cases hr : s.bridge.registerAt r with
    | none => cases h.symm.trans (exec_regrd_refused hr)
    | some reg => cases h.symm.trans (exec_regrd hr); exact memRead_bus_ne_failed hoff rfl _ _ a
  · cases hr : s.bridge.registerAt r with
    | none => cases h.symm.trans (exec_regwr_refused hr)
    | some reg => cases h.symm.trans (exec_regwr hr); exact memWrite_bus_ne_failed hoff rfl _ _ _ a

theorem showsNoFailure_foreignAccess {i : Instr} (hi : ForeignAccess i) (h : exec i s = .next t) : ShowsNoFailure s t := by
  refine ⟨?rsp, exec_foreignAccess_bus_ne_failed hno hi h⟩
  obtain ⟨r, he⟩ | ⟨c, d, x, he, -⟩ := execForeign_cases hi s <;> cases h.symm.trans he
  exact id

theorem showsNoFailure_exec {i : Instr} (h : exec i s = .next t) : ShowsNoFailure s t := by
  have hcommand (hi : HostCommand i) : ShowsNoFailure s t := by
    cases h.symm.trans (exec_hostCommand hi s); exact showsNoFailure_hostCommand hi s
  cases i with
  | nop => exact hcommand (.inl rfl)
  | poll => exact hcommand (.inr (.inl rfl))
  | take => exact hcommand (.inr (.inr (.inl rfl)))
  | rsvd => exact hcommand (.inr (.inr (.inr rfl)))
  | rdRxlvl => exact showsNoFailure_foreignAccess hno (.inl rfl) h
  | rdRhr => exact showsNoFailure_foreignAccess hno (.inr (.inl rfl)) h
  | regrd r => exact showsNoFailure_foreignAccess hno (.inr (.inr (.inl ⟨r, rfl⟩))) h
  | regwr r v => exact showsNoFailure_foreignAccess hno (.inr (.inr (.inr ⟨r, v, rfl⟩))) h
  | lvl => exact showsNoFailure_execLvl hno h
  | pull => exact showsNoFailure_execPull hno h
  | push b => cases h; exact ⟨id, fun _ => nofun⟩
  | reset => cases h; exact ⟨fun _ => nofun, fun _ => nofun⟩

end

end Sys2Proof.Machine

open Sys2Proof Sys2Proof.Machine

/-- Settles O50: no transaction meets an error, and an operation shows a failure only of a transaction that does. -/
theorem withoutErrorPortNothingFails : Obligations.WithoutErrorPortNothingFails := by
  intro i s t hx h
  obtain ⟨hrsp, hbus⟩ := showsNoFailure_exec (busOutcome_ne_err hx) h
  exact ⟨hrsp, hbus⟩

end

section
/-! PROOFS. The state machine of 43_state_machine.md: the terminator recogniser (R171), the rows of the tables of st (R170) and of phase
and the response (R172), and what a partial buffer keeps in ACC (R176). -/

namespace Sys2Proof.Machine

/-! ### The terminator recogniser (R171) -/

theorem byteClass_eq_t0_iff (b : Byte) : byteClass b = .t0 ↔ b = Config.t0 := by
  unfold byteClass
  split
  · simpa
  · split <;> simpa

theorem byteClass_eq_t1_iff (b : Byte) : byteClass b = .t1 ↔ b = Config.t1 := by
  have hne : Config.t0 ≠ Config.t1 := by decide
  unfold byteClass
  split
  next h => simpa [h] using hne
  next => split <;> simpa

theorem seenT0_iff (b : Nat → Byte) (n : Nat) : seenT0 b n = true ↔ 1 ≤ n ∧ b (n - 1) = Config.t0 := by
  simp [seenT0]

/-- A match one byte further: T0 was seen, and the new byte is T1. -/
theorem terminatorMatch_succ_iff (b : Nat → Byte) (n : Nat) :
    terminatorMatch b (n + 1) = true ↔ seenT0 b n = true ∧ b n = Config.t1 := by
  rw [terminatorMatch_iff, seenT0_iff, and_assoc, Nat.add_sub_cancel]
  exact and_congr_left' Nat.succ_le_succ_iff

theorem seenT0_succ_iff (b : Nat → Byte) (n : Nat) : seenT0 b (n + 1) = true ↔ b n = Config.t0 := by
  simp [seenT0_iff]

/-- T0 seen depends on the bytes below n only. -/
theorem seenT0_congr {b c : Nat → Byte} {n : Nat} (h : ∀ i, i < n → b i = c i) : seenT0 b n = true ↔ seenT0 c n = true := by
  rw [seenT0_iff, seenT0_iff]
  exact and_congr_right fun hn => by rw [h (n - 1) (by omega)]

theorem terminated_appendByte_iff (b : Byte) (s : State) :
    (appendByte b s).terminated = true ↔ seenT0 s.byteAt s.len = true ∧ b = Config.t1 := by
  rw [State.terminated, appendByte_len, terminatorMatch_succ_iff, byteAt_appendByte_same,
    seenT0_congr fun i hi => byteAt_appendByte_other b s (Nat.ne_of_lt hi)]

/-- A PULL's byte completes the sentence only after T0, in the buffer as it was before the pop (R170). -/
theorem State.Inv.match_after_pop {s : State} (h : s.Inv) {b : Byte} {f : List Byte} {d : Nat}
    (hm : (appendByte b (popped s b f d)).terminated = true) : s.byteAt (s.len - 1) = Config.t0 ∧ b = Config.t1 := by
  obtain ⟨hseen, hb⟩ := (terminated_appendByte_iff b (popped s b f d)).1 hm
  have hkeep : ∀ i, i < s.len → (popped s b f d).byteAt i = s.byteAt i := fun i hi => byteAt_congr rfl (h.bufFilled i hi)
  exact ⟨((seenT0_iff _ _).1 ((seenT0_congr hkeep).1 hseen)).2, hb⟩

/-! ### phase and the response (R172) -/

/-- The agents' operations (R103): the host's, the engine's, the platform's, other software's, the producer's. -/
theorem instr_cases (i : Instr) :
    HostCommand i ∨ i = .lvl ∨ i = .pull ∨ i = .reset ∨ ForeignAccess i ∨ ∃ b, i = .push b := by
  cases i <;> simp [HostCommand, ForeignAccess]

/-- A host command waits, begins a poll cycle, or answers the code of the framing state it leaves. -/
theorem accept_commandStep_cases {i : Instr} (hi : HostCommand i) (s : State) {t : State} (ht : s.accept (commandStep i) = t) :
    (s.phase ≠ .idle ∧ t.phase = s.phase ∧ t.rsp = none) ∨
    (i = .poll ∧ s.phase = .idle ∧ s.st = .acc ∧ t.phase = .query ∧ t.rsp = none) ∨
    ((i = .poll → s.st ≠ .acc) ∧ s.phase = .idle ∧ t.phase = .idle ∧ t.rsp = some t.st.response) := by
  subst ht
  by_cases hp : s.phase = .idle
  · right
    rw [accept_idle _ hp]
    obtain rfl | rfl | rfl | rfl := hi
    · exact .inr ⟨nofun, hp, hp, rfl⟩
    · obtain ⟨hst, h⟩ | ⟨hst, h⟩ := pollAccept_cases s.quiet <;> rw [commandStep, h]
      · exact .inl ⟨rfl, hp, hst, rfl, rfl⟩
      · exact .inr ⟨fun _ => hst, hp, hp, rfl⟩
    · obtain ⟨-, h⟩ | ⟨-, h⟩ := takeStep_cases s.quiet <;> rw [commandStep, h] <;> exact .inr ⟨nofun, hp, hp, rfl⟩
    · exact .inr ⟨nofun, hp, hp, rfl⟩
  · rw [accept_busy _ hp]
    exact .inl ⟨hp, rfl, rfl⟩

/-- LVL waits, ends the command with XERR or NONE, or gives the batch (R113). -/
theorem execLvl_phase_rsp {s t : State} (h : execLvl s = .next t) :
    (t.phase = s.phase ∧ t.rsp = none) ∨
    (s.phase = .query ∧ t.phase = .idle ∧ (t.rsp = some .xerr ∨ t.rsp = some .none)) ∨
    (s.phase = .query ∧ t.phase = .drain ∧ t.rem ≠ 0 ∧ t.rsp = none) := by
  obtain ⟨-, he⟩ | ⟨-, -, he⟩ | ⟨hp, -, he⟩ | ⟨hp, -, -, he⟩ | ⟨hp, -, hn, he⟩ := execLvl_cases s <;>
    cases h.symm.trans he
  · exact .inl ⟨rfl, rfl⟩
  · exact .inl ⟨rfl, rfl⟩
  · exact .inr (.inl ⟨hp, rfl, .inl rfl⟩)
  · exact .inr (.inl ⟨hp, rfl, .inr rfl⟩)
  · exact .inr (.inr ⟨hp, rfl, hn, rfl⟩)

/-- The end of a PULL either ends the command with the code of st or leaves it under way (R119 to R121). -/
theorem afterAppend_phase_rsp {a : State} (ha : a.st = .acc) :
    ((afterAppend a).phase = a.phase ∧ (afterAppend a).rsp = a.rsp) ∨
    ((afterAppend a).phase = .idle ∧ (afterAppend a).rsp = some (afterAppend a).st.response) := by
  obtain ⟨-, h⟩ | ⟨-, -, h⟩ | ⟨-, -, h⟩ := afterAppend_cases a <;> rw [h]
  · exact .inr ⟨rfl, rfl⟩
  · exact .inr ⟨rfl, by rw [ha]; rfl⟩
  · exact .inl ⟨rfl, rfl⟩

/-- PULL leaves the command under way, or ends it with the code of st, or with XERR in ACC (R115 to R121). -/
theorem State.Inv.execPull_phase_rsp {s t : State} (hs : s.Inv) (h : execPull s = .next t) :
    (t.phase = s.phase ∧ t.rsp = none) ∨
    (s.phase = .drain ∧ t.phase = .idle ∧ (t.rsp = some t.st.response ∨ t.rsp = some .xerr ∧ t.st = .acc)) := by
  have hacc (hp : s.phase = .drain) : s.st = .acc := hs.busyAccumulates (by simp [hp])
  obtain ⟨-, he⟩ | ⟨hp, -, he⟩ | ⟨-, -, -, he⟩ | ⟨hp, -, took, f, d, -, -, he⟩ |
    ⟨hp, -, b, f, d, -, -, -, ⟨-, he⟩ | ⟨-, he⟩⟩ := execPull_cases s <;> cases h.symm.trans he
  · exact .inl ⟨rfl, rfl⟩
  · exact .inr ⟨hp, rfl, .inl rfl⟩
  · exact .inl ⟨rfl, rfl⟩
  · exact .inr ⟨hp, rfl, .inr ⟨rfl, hacc hp⟩⟩
  · exact (afterAppend_phase_rsp (a := appendByte b (popped s b f d)) (hacc hp)).imp id fun hend =>
      ⟨hp, hend.1, .inl hend.2⟩

/-- No other agent's transaction changes phase or the response port (R39, R41). -/
theorem exec_foreignAccess_phase_rsp {i : Instr} {s t : State} (hi : ForeignAccess i) (h : exec i s = .next t) :
    t.phase = s.phase ∧ t.rsp = s.rsp := by
  obtain ⟨r, he⟩ | ⟨c, d, x, he, -⟩ := execForeign_cases hi s <;> cases h.symm.trans he
  exact ⟨rfl, rfl⟩

/-! ### The partial buffer (R176) -/

/-- A TAKE accepted in ACC only answers (R142). -/
theorem Effect.take_len_of_acc {s t : State} (he : Effect s .take t) (hst : s.st = .acc) : t.len = s.len := by
  cases he with
  | emits _ hc => cases hst.symm.trans hc
  | _ => rfl

/-- In ACC every operation but RESET keeps the buffer and its length, or appends one byte (R142, R176). -/
theorem Effect.buffer_of_acc {i : Instr} {s t : State} (he : Effect s i t) (hst : s.st = .acc) (hi : i ≠ .reset) :
    (t.len = s.len ∧ t.buf = s.buf) ∨ (t.len = s.len + 1 ∧ ∃ b, t.buf = s.buf.write s.len b) := by
  obtain ⟨hbuf, hlen | ⟨rfl | rfl, -⟩⟩ | ⟨-, hlen, hbuf⟩ := he.buffer
  · exact .inl ⟨hlen, hbuf⟩
  · exact .inl ⟨he.take_len_of_acc hst, hbuf⟩
  · exact absurd rfl hi
  · exact .inr ⟨hlen, hbuf⟩

end Sys2Proof.Machine

open Sys2Proof Sys2Proof.Machine

/-- Settles O22: the bytes below len are kept by the append, and the byte at len is the new one. -/
theorem recogniserFollowsTheByteClasses : Obligations.RecogniserFollowsTheByteClasses := by
  intro s b
  rw [byteClass_eq_t0_iff, byteClass_eq_t1_iff, appendByte_len, seenT0_succ_iff, byteAt_appendByte_same]
  exact ⟨terminated_appendByte_iff b s, Iff.rfl⟩

/-- Settles O46: four effects write st, and each is a row of the table. -/
theorem framingStateFollowsTheTable : Obligations.FramingStateFollowsTheTable := by
  intro i s t h hexec hst
  cases exec_effect hexec with
  | resets => exact .inl ⟨rfl, rfl, rfl⟩
  | overflows hp hl => exact .inr (.inl ⟨rfl, h.busyAccumulates (by simp [hp]), rfl, hl, rfl, rfl⟩)
  | emits _ hc => exact .inr (.inr (.inr ⟨rfl, hc, rfl, rfl⟩))
  | @appends hp _ _ b f d =>
    obtain ⟨hm, ha⟩ | ⟨-, -, ha⟩ | ⟨-, -, ha⟩ := afterAppend_cases (appendByte b (popped s b f d)) <;> rw [ha] at hst ⊢
    · obtain ⟨hprev, rfl⟩ := h.match_after_pop hm
      exact .inr (.inr (.inl
        ⟨rfl, h.busyAccumulates (by simp [hp]), rfl, rfl, hprev, byteAt_appendByte_same _ (popped s _ f d), rfl⟩))
    · exact absurd rfl hst
    · exact absurd rfl hst
  | _ => exact absurd rfl hst

/-- Settles O47: the host commands, LVL and PULL each follow their rows; the others leave phase and the response, or reset them. -/
theorem phaseAndResponseFollowTheTable : Obligations.PhaseAndResponseFollowTheTable := by
  intro i s t h hexec
  obtain hc | rfl | rfl | rfl | hf | ⟨b, rfl⟩ := instr_cases i
  · obtain ⟨hp, hphase, hrsp⟩ | hbegins | hanswers :=
      accept_commandStep_cases hc s (Host.Outcome.next.inj ((exec_hostCommand hc s).symm.trans hexec))
    · exact .inr (.inl ⟨.inr (.inr ⟨hp, hc⟩), hphase, hrsp⟩)
    · exact .inr (.inr (.inr (.inl hbegins)))
    · exact .inr (.inr (.inr (.inr (.inl ⟨hc, hanswers⟩))))
  · obtain hstays | hends | hdrains := execLvl_phase_rsp hexec
    · exact .inr (.inl ⟨.inl rfl, hstays⟩)
    · exact .inr (.inr (.inr (.inr (.inr (.inl ⟨rfl, hends⟩)))))
    · exact .inr (.inr (.inr (.inr (.inr (.inr (.inl ⟨rfl, hdrains⟩))))))
  · obtain hstays | hends := h.execPull_phase_rsp hexec
    · exact .inr (.inl ⟨.inr (.inl rfl), hstays⟩)
    · exact .inr (.inr (.inr (.inr (.inr (.inr (.inr ⟨rfl, hends⟩))))))
  · cases hexec
    exact .inr (.inr (.inl ⟨rfl, rfl, rfl⟩))
  · exact .inl ⟨.inr hf, exec_foreignAccess_phase_rsp hf hexec⟩
  · cases hexec
    exact .inl ⟨.inl ⟨b, rfl⟩, rfl, rfl⟩

/-- Settles O49: the buffer is kept, or one byte is appended. -/
theorem onlyResetDiscardsAPartialBuffer : Obligations.OnlyResetDiscardsAPartialBuffer := by
  intro i s t h hst hi hexec
  obtain ⟨hlen, hbuf⟩ | ⟨hlen, b, hbuf⟩ := (exec_effect hexec).buffer_of_acc hst hi
  · exact ⟨[], by rw [h.sentence_eq hlen hbuf, List.append_nil], Nat.zero_le 1⟩
  · exact ⟨[b], h.sentence_of_write hlen hbuf, Nat.le_refl 1⟩

end

section
/-! PROOFS. The Overflow fault once taken (60_exceptions.md R199, R201), and which agent a clock edge serves (60_exceptions.md R196,
10_state.md R39, R41). -/

namespace Sys2Proof.Machine

/-! ### Operations in OVF (R199) -/

/-- In OVF no command is under way (R173). -/
theorem State.Inv.idle_of_ovf {s : State} (h : s.Inv) (hst : s.st = .ovf) : s.phase = .idle := by
  by_contra hbusy
  cases hst.symm.trans (h.busyAccumulates hbusy)

/-- From IDLE in OVF every effect but a reset's keeps the LFE's elements and emits nothing. -/
theorem Effect.frame_of_ovf {i : Instr} {s t : State} (he : Effect s i t) (hp : s.phase = .idle) (hst : s.st = .ovf)
    (hi : i ≠ .reset) :
    t.st = .ovf ∧ t.len = s.len ∧ t.rem = s.rem ∧ t.phase = .idle ∧ t.buf = s.buf ∧ t.emission = none := by
  cases he with
  | holds | answers | pushes | transacts => exact ⟨hst, rfl, rfl, hp, rfl, rfl⟩
  | beginsPoll _ hacc => cases hst.symm.trans hacc
  | emits _ hcmp => cases hst.symm.trans hcmp
  | failsRead _ hbusy => exact absurd hp hbusy
  | readsLevelZero hbusy | beginsBatch hbusy | overflows hbusy | appends hbusy => cases hp.symm.trans hbusy
  | resets => exact absurd rfl hi

/-- In OVF every host command only answers the code of st (R122, R142, R144, R145). -/
theorem commandStep_of_ovf {i : Instr} (hi : HostCommand i) {s : State} (hst : s.st = .ovf) :
    commandStep i s = s.respondStatus := by
  obtain rfl | rfl | rfl | rfl := hi
  · rfl
  · exact ((pollAccept_cases s).resolve_left fun h => nomatch hst.symm.trans h.1).2
  · exact ((takeStep_cases s).resolve_left fun h => nomatch hst.symm.trans h.1).2
  · rfl

theorem exec_hostCommand_of_ovf {i : Instr} (hi : HostCommand i) {s : State} (hp : s.phase = .idle) (hst : s.st = .ovf) :
    exec i s = .next (s.quiet.respond .ovf) := by
  rw [exec_hostCommand_answers hi hp (commandStep_of_ovf hi hst), hst, Framing.response]

/-! ### The clock edge (R39, R196) -/

theorem nextRequest_of_rst {s : PortState} {p : Pins s.core.params} (hr : p.rst = true) : nextRequest s p = false := by
  simp [nextRequest, hr]

/-- An idle engine has no read due, so f_req is not raised (R42). -/
theorem nextRequest_of_idle {s : PortState} (p : Pins s.core.params) (hp : s.core.phase = .idle) :
    nextRequest s p = false := by
  have hdue : readDue s.core = false := by simp [readDue, State.popOutstanding, hp]
  rw [nextRequest, hdue, Bool.and_false, Bool.false_and]

/-- A command offered while cmd_ready is high takes the edge (R41). -/
theorem turnAtEdge_of_command {s : PortState} {p : Pins s.core.params} (hr : p.rst = false) (hv : p.cmdValid = true)
    (hp : s.core.phase = .idle) : turnAtEdge s p = ⟨.wire (.cmd p.cmd), readOutcome s p⟩ := by
  rw [turnAtEdge, if_neg (by simp [hr]), if_pos (by simp [hv, cmdReady_iff, hp, hr])]

/-- With no command offered the engine takes the edge (R39). -/
theorem turnAtEdge_of_no_command {s : PortState} {p : Pins s.core.params} (hr : p.rst = false) (hv : p.cmdValid = false) :
    turnAtEdge s p = ⟨.engine, readOutcome s p⟩ := by
  rw [turnAtEdge, if_neg (by simp [hr]), if_neg (by simp [hv])]

/-- While cmd_ready is low the turn is the one of an edge with no command offered (R41). -/
theorem turnAtEdge_of_not_ready {s : PortState} {p : Pins s.core.params} (h : cmdReady p.rst s.core = false) :
    turnAtEdge s p = turnAtEdge s { p with cmdValid := false } := by
  simp only [turnAtEdge, h, Bool.and_false]
  rfl

/-- An edge whose turn decodes runs that operation, with f_req beside it. -/
theorem clockEdge_of_decode {s : PortState} {p : Pins s.core.params} {t : Turn} {w : Wire} {i : Instr}
    (ht : turnAtEdge s p = t) (hw : wireOf s.core.phase t.action = some w) (hd : decode w = .ok i) :
    clockEdge s p = withRequest (nextRequest s p) (exec i (s.core.meeting t.outcome)) := by
  rw [clockEdge, ht, step_withTurn_of_decode hw hd]

/-- A host command run from IDLE answers in its own step, or begins a poll cycle (R110, R144). -/
theorem exec_hostCommand_answers_or_polls {i : Instr} (hi : HostCommand i) {s : State} (hp : s.phase = .idle) :
    ∃ t, exec i s = .next t ∧ (t.phase = .query ∧ rspValid t = false ∨ t.phase = .idle ∧ rspValid t = true) := by
  refine ⟨_, exec_hostCommand hi s, ?_⟩
  obtain ⟨hbusy, -⟩ | ⟨-, -, -, hquery, hrsp⟩ | ⟨-, -, hidle, hrsp⟩ := accept_commandStep_cases hi s rfl
  · exact absurd hp hbusy
  · exact .inl ⟨hquery, by rw [rspValid, hrsp]; rfl⟩
  · exact .inr ⟨hidle, by rw [rspValid, hrsp]; rfl⟩

end Sys2Proof.Machine

open Sys2Proof Sys2Proof.Machine

/-- Settles O48: in OVF the engine is idle, so the only effects left but RESET keep the elements, and each command answers OVF. -/
theorem overflowIsSticky : Obligations.OverflowIsSticky := by
  intro i s t h hst hi hexec
  have hp := h.idle_of_ovf hst
  obtain ⟨hst', hlen, hrem, hphase, hbuf, hemission⟩ := (exec_effect hexec).frame_of_ovf hp hst hi
  refine ⟨hst', hlen, hrem, hphase, fun a => by rw [hbuf], hemission, fun hc => ?_⟩
  cases hexec.symm.trans (exec_hostCommand_of_ovf hc hp hst)
  exact ⟨rfl, rfl, rfl⟩

/-- Settles O36: each case of rst, phase and cmd_valid fixes the turn of the edge, and with it the operation run. -/
theorem clockEdgePrecedence : Obligations.ClockEdgePrecedence := by
  intro s p
  refine ⟨fun hr => ?reset, fun hr hv hp => ?command, fun hr hv hp => ?idle, fun hr hp => ?query, fun hr hp => ?drain,
    cmdReady_iff p.rst s.core, fun h => ?notReady⟩
  case reset => rw [clockEdge_of_decode (i := .reset) (turnAtEdge_of_rst hr) rfl rfl, nextRequest_of_rst hr, State.meeting]
  case command =>
    have hedge := clockEdge_of_decode (turnAtEdge_of_command hr hv hp) rfl rfl
    rw [nextRequest_of_idle p hp] at hedge
    obtain ⟨t, ht, hanswer⟩ :=
      exec_hostCommand_answers_or_polls (hostCommand_decodeCommand p.cmd) (s := s.core.meeting (readOutcome s p)) hp
    exact ⟨hedge, ⟨t, false⟩, by rw [hedge, ht, withRequest], hanswer⟩
  case idle =>
    rw [clockEdge, turnAtEdge_of_no_command hr hv, step_engine_idle _ hp, nextRequest_of_idle p hp]
    rfl
  case query =>
    have hturn := turnAtEdge_of_busy hr (by rw [hp]; decide)
    exact clockEdge_of_decode hturn (wireOf_engine_query hp) rfl
  case drain =>
    have hturn := turnAtEdge_of_busy hr (by rw [hp]; decide)
    exact clockEdge_of_decode hturn (wireOf_engine_drain hp) rfl
  case notReady =>
    rw [clockEdge, clockEdge, ← turnAtEdge_of_not_ready h]
    rfl

end

section
/-! PROOFS. Reset and the hazards of the bus (70_reset_and_hazards.md): a reset in every state (R216 to R219), a pop under the
single-consumer count (R226), a transaction that is not answered (R236), and the offsets that select no register (R238). -/

namespace Sys2Proof.Machine

/-! ### Reset (R216, R217) -/

/-- A reset abandons nothing unless a pop is outstanding and takes effect (R217, D25). -/
theorem abandonRead_of_no_effect {s : State} (h : (s.popOutstanding && sideEffect s.busOutcome) = false) : s.abandonRead = s := by
  rw [State.abandonRead, h]; rfl

/-- A pop that a reset cuts off with effect was outstanding, with room in the buffer and an answer under way. -/
theorem popOutstanding_sideEffect {s : State} (h : (s.popOutstanding && sideEffect s.busOutcome) = true) :
    s.phase = .drain ∧ s.len ≠ s.params.maxlen ∧ s.busOutcome ≠ .noAck := by
  obtain ⟨hpop, heffect⟩ := Bool.and_eq_true_iff.1 h
  obtain ⟨hp, hl⟩ := (popOutstanding_iff s).1 hpop
  exact ⟨hp, hl, fun ho => by rw [ho] at heffect; cases heffect⟩

/-! ### The single-consumer count (R63, R226) -/

/-- While bytes remain to be pulled, the count leaves one at the FIFO's head. -/
theorem State.Counted.fifo_ne_nil {s : State} (hn : s.Counted) (h : s.Inv) (hp : s.phase = .drain) : s.bridge.fifo ≠ [] := by
  intro hnil
  have hle : s.rem.toNat ≤ s.bridge.fifo.length := hn hp
  have hrem : s.rem ≠ 0 := h.remInDrain hp
  rw [hnil, List.length_nil] at hle
  bv_omega

/-- A PULL whose read returned a byte popped it and appended it (R115, R118). -/
theorem execPull_data {s t : State} {x v : Byte} (he : execPull s = .next t) (hx : t.bus = some ⟨x, .data v⟩) :
    s.busOutcome = .ack ∧ ∃ f d, s.quiet.fifoPop = (.ok v, popped s v f d) ∧ t.bridge.fifo = f := by
  obtain ⟨-, h⟩ | ⟨-, -, h⟩ | ⟨-, -, -, h⟩ | ⟨-, -, _, _, _, -, -, h⟩ |
    ⟨-, -, b, f, d, hack, hpop, -, ⟨-, h⟩ | ⟨-, h⟩⟩ := execPull_cases s <;> cases he.symm.trans h
  case inr.inr.inr.inr.inl =>
    rw [afterAppend_bus] at hx
    cases hx
    exact ⟨hack, f, d, hpop, by rw [afterAppend_bridge]; rfl⟩
  all_goals cases hx

/-! ### The register map's gaps (R30, R238) -/

/-- No register stands at 0x0A to 0x0F, nor at 0x07 while it is not valid. -/
theorem registerAt_eq_none_iff (c : Bridge) (r : Offset) :
    c.registerAt r = none ↔ 0xA ≤ r.toNat ∨ (r = 0x7 ∧ c.triggerValid = false) := by
  have hseven : r = 0x7 ↔ r.toNat = 0x7 := BitVec.toNat_inj.symm
  rw [hseven, Bridge.registerAt]
  split
  -- the cases in which the map itself decides: 0x2 by the view, 0x7 by its validity, and the offsets beyond 0x9
  case h_3 hr => rw [hr]; cases c.latchAccess <;> simp
  case h_8 hr => rw [hr]; cases c.triggerValid <;> simp
  case h_11 =>
    refine iff_of_true rfl (.inl ?_)
    simp only [imp_false] at *
    omega
  all_goals simp [*]

theorem triggerValid_iff (c : Bridge) :
    c.triggerValid = true ↔ Config.enhancedEnabled c.enhancedFeature = true ∧ c.modemControl.getLsbD 2 = true :=
  Bool.and_eq_true_iff

end Sys2Proof.Machine

open Sys2Proof Sys2Proof.Machine

/-- Settles O30: the refusal comes exactly from an offset at which the map has no register. -/
theorem offsetWithoutRegisterIsRefused : Obligations.OffsetWithoutRegisterIsRefused := by
  intro s r v
  refine ⟨?_, triggerValid_iff s.bridge⟩
  split
  next hgap =>
    have hnone := (registerAt_eq_none_iff s.bridge r).2 hgap
    exact ⟨exec_regrd_refused hnone, exec_regwr_refused hnone⟩
  next hgap =>
    obtain ⟨reg, hreg⟩ := Option.ne_none_iff_exists'.1 (mt (registerAt_eq_none_iff s.bridge r).1 hgap)
    exact ⟨⟨_, exec_regrd hreg⟩, _, exec_regwr hreg⟩

/-- Settles O35: only a pop that is outstanding and takes effect reaches the bridge chip, and it takes the FIFO's head at most. -/
theorem resetCompletesInEveryState : Obligations.ResetCompletesInEveryState := by
  intro s
  cases heffect : s.popOutstanding && sideEffect s.busOutcome with
  | false =>
    exact ⟨s.bridge.fifo, s.draws, by rw [exec, execReset, abandonRead_of_no_effect heffect]; rfl, .inl rfl, fun _ => ⟨rfl, rfl⟩⟩
  | true =>
    obtain ⟨hp, hl, ho⟩ := popOutstanding_sideEffect heffect
    obtain ⟨f, d, he, hf⟩ := execReset_cases s
    exact ⟨f, d, he, hf, fun hnone => absurd hnone (by simp [hp, hl, ho])⟩

/-- Settles O42: rem is positive in DRAIN and counts bytes of the FIFO, so the pop finds its head. -/
theorem engineNeverPopsAnEmptyFifo : Obligations.EngineNeverPopsAnEmptyFifo := by
  intro s t h hn hp hv
  refine ⟨hn.fifo_ne_nil h hp, fun x v he hx => ?_⟩
  obtain ⟨hack, f, d, hpop, rfl⟩ := execPull_data he hx
  exact fifo_eq_cons_of_pop h hn hp hv hack hpop

/-- Settles O21: an unanswered read returns the state it was asked in, and an unanswered write leaves it. -/
theorem unansweredReadHoldsTheEngine : Obligations.UnansweredReadHoldsTheEngine := by
  intro s ho
  have hoff : s.offClock.busOutcome = .noAck := by rwa [busOutcome_offClock]
  have hquiet : s.quiet.busOutcome = .noAck := by rwa [busOutcome_quiet]
  refine ⟨fun hp => ?lvl, fun hp hl => ?pull, ?rxlvl, ?rhr, fun r v hr => ?register⟩
  case lvl => rw [exec, execLvl_query hp, fifoLevel_noAck hquiet]; rfl
  case pull => rw [exec, execPull_pop hp hl, fifoPop_noAck hquiet]; rfl
  case rxlvl => rw [exec, execRdRxlvl, fifoLevel_noAck hoff]; rfl
  case rhr => rw [exec, execRdRhr, fifoPop_noAck hoff]; rfl
  case register =>
    obtain ⟨reg, hreg⟩ := Option.isSome_iff_exists.1 hr
    rw [exec_regrd hreg, exec_regwr hreg, memRead_noAck _ _ hoff, memWrite_noAck _ _ _ hoff]
    exact ⟨rfl, rfl⟩

end

section
/-! PROOFS. Fair runs (70_reset_and_hazards.md R241): no step of any agent adds to the micro-steps left of a poll cycle, an answered one
of the engine takes from them, and a command leaves a busy phase only with a response or by a reset. -/

namespace Sys2Proof.Machine

/-! ### One operation while the engine is busy -/

section
variable {i : Instr} {s t : State} (he : Effect s i t) (hp : s.phase ≠ .idle)
include he hp

/-- Only a micro-step and RESET move a busy engine (R172, R217). -/
theorem Effect.phase_of_busy : t.phase = s.phase ∨ (i = .lvl ∨ i = .pull) ∨ i = .reset := by
  cases he with
  | holds | answers | emits | pushes | transacts => exact .inl rfl
  | beginsPoll hidle => exact absurd hidle hp
  | failsRead hi => exact .inr (.inl hi)
  | readsLevelZero | beginsBatch => exact .inr (.inl (.inl rfl))
  | overflows | appends => exact .inr (.inl (.inr rfl))
  | resets => exact .inr (.inr rfl)

/-- A command ends with a response, or by a reset (R41, R217). -/
theorem Effect.answered_or_reset (ht : t.phase = .idle) : t.rsp.isSome = true ∨ i = .reset := by
  obtain hsame | hi | hreset := he.phase_of_busy hp
  · exact absurd (hsame.symm.trans ht) hp
  · exact .inl (Option.isSome_iff_ne_none.2 (he.rsp_ne_none hi hp ht))
  · exact .inr hreset

/-- No operation adds to the micro-steps that are left of the cycle (R127). -/
theorem Effect.stepsLeft_le (h : s.Inv) : t.stepsLeft ≤ s.stepsLeft := by
  cases he with
  | holds | pushes | transacts => exact Nat.le_refl _
  | answers _ hidle | beginsPoll hidle | emits hidle => exact absurd hidle hp
  | failsRead | readsLevelZero | overflows | resets => exact Nat.zero_le _
  | beginsBatch hquery => rw [stepsLeft_query hquery]; exact Nat.le_of_lt (BitVec.isLt _)
  | @appends hdrain _ _ b f d =>
    obtain ⟨-, ha⟩ | ⟨-, -, ha⟩ | ⟨-, -, ha⟩ := afterAppend_cases (appendByte b (popped s b f d)) <;> rw [ha]
    · exact Nat.zero_le _
    · exact Nat.zero_le _
    · have hrem : s.rem ≠ 0 := h.remInDrain hdrain
      rw [stepsLeft_drain hdrain, stepsLeft_drain (s := appendByte b (popped s b f d)) hdrain]
      show (s.rem - 1).toNat ≤ s.rem.toNat
      bv_omega

end

/-! ### One step while the engine is busy -/

/-- The engine's turn in a busy phase is the micro-step of that phase (R113, R115). -/
theorem step_engine_eq_pollingMove {s : State} {t : Turn} (ha : t.action = .engine) (hp : s.phase ≠ .idle) :
    step (s.withTurn t) = pollingMove (s.meeting t.outcome) := by
  rw [pollingMove_eq_exec]
  cases hs : s.phase with
  | idle => exact absurd hs hp
  | query => rw [meeting_phase, hs]; exact step_withTurn_of_decode (ha ▸ wireOf_engine_query hs) rfl
  | drain => rw [meeting_phase, hs]; exact step_withTurn_of_decode (ha ▸ wireOf_engine_drain hs) rfl

section
variable {s s' : State} {t : Turn} (hstep : step (s.withTurn t) = .next s') (hp : s.phase ≠ .idle)
include hstep hp

theorem step_stepsLeft_le (h : s.Inv) : s'.stepsLeft ≤ s.stepsLeft := by
  obtain ⟨-, rfl⟩ | ⟨w, i, -, -, he⟩ := step_withTurn_cases hstep
  · exact Nat.le_refl _
  · exact he.stepsLeft_le hp (h.meeting t.outcome)

/-- A step that ends a command answers it, or is a reset (R217). -/
theorem step_answered_or_reset (ht : s'.phase = .idle) : s'.rsp.isSome = true ∨ t.action = .wire .rst := by
  obtain ⟨-, rfl⟩ | ⟨w, i, hw, hd, he⟩ := step_withTurn_cases hstep
  · exact absurd ht hp
  · exact (he.answered_or_reset hp ht).imp_right (action_of_reset hw hd)

end

/-! ### Fair runs (R241) -/

section
variable {r : Run} (h0 : (r.state 0).Inv)
include h0

theorem Run.inv (n : Nat) : (r.state n).Inv := by
  induction n with
  | zero => exact h0
  | succ n ih => exact (ih.withTurn (r.turn n)).step (r.next n)

/-- While the engine stays busy, the micro-steps left never grow. -/
theorem Run.stepsLeft_le {n m : Nat} (hbusy : ∀ k, n ≤ k → (r.state k).phase ≠ .idle) (hm : n ≤ m) :
    (r.state m).stepsLeft ≤ (r.state n).stepsLeft := by
  induction m, hm using Nat.le_induction with
  | base => exact Nat.le_refl _
  | succ m hm ih => exact (step_stepsLeft_le (r.next m) (hbusy m hm) (Run.inv h0 m)).trans ih

/-- An answered turn of a busy engine takes at least one of them. -/
theorem Run.stepsLeft_lt_of_answered {m : Nat} (hp : (r.state m).phase ≠ .idle) (ha : r.answered m) :
    (r.state (m + 1)).stepsLeft < (r.state m).stepsLeft := by
  obtain ⟨hengine, hanswer⟩ := ha
  exact ((Run.inv h0 m).meeting (r.turn m).outcome).stepsLeft_lt hp hanswer
    ((step_engine_eq_pollingMove hengine hp).symm.trans (r.next m))

/-- In a fair run no engine stays busy for ever: each answer takes a micro-step from a finite number (R127, R241). -/
theorem Run.Fair.not_busy_forever (hf : r.Fair) (n : Nat) : ¬∀ k, n ≤ k → (r.state k).phase ≠ .idle := by
  intro hbusy
  induction hleft : (r.state n).stepsLeft using Nat.strong_induction_on generalizing n with
  | h left ih =>
    obtain ⟨m, hm, ha⟩ := hf.answer n fun k hk => ⟨hbusy k hk, hf.engine k fun j hj => hbusy j (hk.trans hj)⟩
    have hlt : (r.state (m + 1)).stepsLeft < left :=
      calc (r.state (m + 1)).stepsLeft
        _ < (r.state m).stepsLeft := Run.stepsLeft_lt_of_answered h0 (hbusy m hm) ha
        _ ≤ (r.state n).stepsLeft := Run.stepsLeft_le h0 hbusy hm
        _ = left := hleft
    exact ih _ hlt (m + 1) (fun k hk => hbusy k (by omega)) rfl

end

end Sys2Proof.Machine

open Sys2Proof Sys2Proof.Machine

/-- Settles O55: the engine comes to rest, and the step that first brings it there answers or is a reset. -/
theorem fairRunsAnswerEveryCommand : Obligations.FairRunsAnswerEveryCommand := by
  intro r hf h0 n hp
  have hrests : ∃ k, (r.state (n + k)).phase = .idle := by
    by_contra hnone
    refine Run.Fair.not_busy_forever h0 hf n fun k hk hidle => hnone ⟨k - n, ?_⟩
    rwa [Nat.add_sub_cancel' hk]
  obtain ⟨k, hbusy, hidle⟩ :=
    Nat.exists_not_and_succ_of_not_zero_of_exists (p := fun k => (r.state (n + k)).phase = .idle) hp hrests
  exact ⟨n + k, Nat.le_add_right n k, hbusy, hidle, step_answered_or_reset (r.next (n + k)) hbusy hidle⟩

end
